-- ==== Sys2Proof/Word.lean ====
section
/-! DEFINITION. The word types of the block (spec/00_scope.md R6, R11). -/

namespace Sys2Proof

/-- A byte of DRAM. -/
abbrev Byte := BitVec 8

/-- A register, pc or timer value: XLEN = 32 bits, unsigned (R6). -/
abbrev Word := BitVec 32

/-- A 4-bit register field of an instruction, naming x[0] to x[15] (R33). -/
abbrev RegIdx := BitVec 4

end Sys2Proof
end

