-- ==== Sys2Proof/Syntax.lean ====
section
/-! DEFINITION. The instructions: one constructor for each row of spec/opcode_table.json, with the operand fields of
spec/30_encoding.md R90 to R103. Unused bits are no operand (R89). -/

namespace Sys2Proof

/-- The two timers, ids 0 and 1 (spec/60_exceptions.md R248). -/
inductive TimerId where
  | t0
  | t1
deriving DecidableEq, Repr

/-- The four instruction widths (spec/30_encoding.md R80). -/
inductive Width where
  | w1
  | w2
  | w4
  | w8
deriving DecidableEq, Repr

/-- The width in bytes. -/
def Width.bytes : Width → Nat
  | .w1 => 1
  | .w2 => 2
  | .w4 => 4
  | .w8 => 8

/-- An instruction with its operands, as spec/40_cycle.md R124 has decode deliver it. A function selector stays the
number the encoding holds (R105): its invalid values are judged when the instruction executes (R87). ARITH_OP is ten
constructors, one for each of its rows in the opcode table. -/
inductive Instr where
  /-- 41_width1.md R150 -/
  | trigger
  /-- 41_width1.md R151 -/
  | ret
  /-- 41_width1.md R152 -/
  | timerSet (tid : TimerId) (fn : BitVec 2)
  /-- 42_width2.md R173 -/
  | triggerPos (pos : BitVec 7)
  /-- 42_width2.md R174 -/
  | jmp (off8 : BitVec 8)
  /-- 42_width2.md R175 -/
  | mov (rd rs : RegIdx)
  /-- 42_width2.md R176 -/
  | bl (off10 : BitVec 10)
  /-- 42_width2.md R178 -/
  | domainSet (dom : BitVec 8)
  /-- 42_width2.md R179 -/
  | display (id : BitVec 10)
  /-- 42_width2.md R180 -/
  | exec (id : BitVec 10)
  /-- 42_width2.md R181 -/
  | edgeDetect (rd rs : RegIdx) (fn : BitVec 3)
  /-- 43_width4.md R200 -/
  | jmpc (fn : BitVec 4) (rs1 rs2 : RegIdx) (off8 : BitVec 8)
  /-- 43_width4.md R202 -/
  | and (rd rs1 rs2 : RegIdx)
  /-- 43_width4.md R203 -/
  | or (rd rs1 rs2 : RegIdx)
  /-- 43_width4.md R204 -/
  | xor (rd rs1 rs2 : RegIdx)
  /-- 43_width4.md R205 -/
  | redand (rd rs1 rs2 : RegIdx)
  /-- 43_width4.md R206 -/
  | redor (rd rs1 rs2 : RegIdx)
  /-- 43_width4.md R207 -/
  | redxor (rd rs1 rs2 : RegIdx)
  /-- 43_width4.md R208 -/
  | concat (rd rs1 rs2 : RegIdx)
  /-- 43_width4.md R209 -/
  | isunk (rd rs1 rs2 : RegIdx)
  /-- 43_width4.md R210 -/
  | add (rd rs1 rs2 : RegIdx)
  /-- 43_width4.md R211 -/
  | sub (rd rs1 rs2 : RegIdx)
  /-- 43_width4.md R212 -/
  | bitSlice (rd rs : RegIdx) (start stop : BitVec 5)
  /-- 43_width4.md R213 -/
  | load (rd : RegIdx) (saddr : BitVec 24)
  /-- 44_width8.md R230; `rsv` is the reserved bit W[59] -/
  | movi (rsv : BitVec 1) (rd : RegIdx) (imm : BitVec 32)
deriving DecidableEq, Repr

end Sys2Proof
end

