-- ==== Sys2Proof/Decode.lean ====
section
/-! DEFINITION. Decoding (spec/30_encoding.md R80 to R107, spec/40_cycle.md R123, R124) and, from the same tables, the
encoder (R109). Two tables hold the spec's own choices, as spec/00_scope.md R10 asks: `opcodeMap` (OPCODE_MAP, decision
D1) and the `Layout` namespace (FIELD_LAYOUT, decisions D2, D13); `arithFuncMap` is ARITH_FUNC_MAP (decision D9). -/

namespace Sys2Proof

/-! ## The opcode map -/

/-- The opcodes of width 1 (R81). -/
inductive OneByteOp where
  | trigger
  | ret
  | timerSet
deriving DecidableEq, Repr

/-- The opcodes of width 2, the move family apart (R81). -/
inductive TwoByteOp where
  | triggerPos
  | jmp
  | bl
  | domainSet
  | display
  | exec
  | edgeDetect
deriving DecidableEq, Repr

/-- The opcodes of width 4 (R81). -/
inductive FourByteOp where
  | jmpc
  | arithOp
  | bitSlice
  | load
deriving DecidableEq, Repr

/-- What an assigned opcode nibble selects: a width, or the move family, which is width 2 or 8 (R81, R83). -/
inductive OpClass where
  | one (o : OneByteOp)
  | two (o : TwoByteOp)
  | four (o : FourByteOp)
  | move
deriving DecidableEq, Repr

/-- OPCODE_MAP, the table of R81. 0xF is unassigned. -/
def opcodeMap : List (BitVec 4 × OpClass) :=
  [(0x0#4, .one .trigger), (0x1#4, .one .ret), (0x2#4, .one .timerSet),
   (0x3#4, .two .triggerPos), (0x4#4, .two .jmp), (0x5#4, .move), (0x6#4, .two .bl),
   (0x7#4, .two .domainSet), (0x8#4, .two .display), (0x9#4, .two .exec), (0xA#4, .two .edgeDetect),
   (0xB#4, .four .jmpc), (0xC#4, .four .arithOp), (0xD#4, .four .bitSlice), (0xE#4, .four .load)]

/-- What a nibble selects, none for an unassigned one (R86). -/
def opClass? (op : BitVec 4) : Option OpClass :=
  (opcodeMap.find? (fun row => row.1 == op)).map Prod.snd

/-- The nibble of an opcode class, read from the same table. -/
def opNibble (c : OpClass) : BitVec 4 :=
  ((opcodeMap.find? (fun row => row.2 == c)).map Prod.fst).getD 0xF#4

/-- The ten functions of ARITH_OP (R105). -/
inductive ArithFn where
  | and
  | or
  | xor
  | redand
  | redor
  | redxor
  | concat
  | isunk
  | add
  | sub
deriving DecidableEq, Repr

/-- ARITH_FUNC_MAP (R105, decision D9). The values 10 to 15 are invalid. -/
def arithFuncMap : List (BitVec 4 × ArithFn) :=
  [(0#4, .and), (1#4, .or), (2#4, .xor), (3#4, .redand), (4#4, .redor), (5#4, .redxor), (6#4, .concat),
   (7#4, .isunk), (8#4, .add), (9#4, .sub)]

/-- The function a selector names, none for an invalid one. -/
def arithFn? (fn : BitVec 4) : Option ArithFn :=
  (arithFuncMap.find? (fun row => row.1 == fn)).map Prod.snd

/-- The selector of a function, read from the same table. -/
def arithSelector (f : ArithFn) : BitVec 4 :=
  ((arithFuncMap.find? (fun row => row.2 == f)).map Prod.fst).getD 0xF#4

/-- The constructor of an ARITH_OP function. -/
def ArithFn.instr (f : ArithFn) (rd rs1 rs2 : RegIdx) : Instr :=
  match f with
  | .and => .and rd rs1 rs2
  | .or => .or rd rs1 rs2
  | .xor => .xor rd rs1 rs2
  | .redand => .redand rd rs1 rs2
  | .redor => .redor rd rs1 rs2
  | .redxor => .redxor rd rs1 rs2
  | .concat => .concat rd rs1 rs2
  | .isunk => .isunk rd rs1 rs2
  | .add => .add rd rs1 rs2
  | .sub => .sub rd rs1 rs2

/-- The opcode class of an instruction. -/
def Instr.opClass : Instr → OpClass
  | .trigger => .one .trigger
  | .ret => .one .ret
  | .timerSet _ _ => .one .timerSet
  | .triggerPos _ => .two .triggerPos
  | .jmp _ => .two .jmp
  | .mov _ _ => .move
  | .bl _ => .two .bl
  | .domainSet _ => .two .domainSet
  | .display _ => .two .display
  | .exec _ => .two .exec
  | .edgeDetect _ _ _ => .two .edgeDetect
  | .jmpc _ _ _ _ => .four .jmpc
  | .and _ _ _ | .or _ _ _ | .xor _ _ _ | .redand _ _ _ | .redor _ _ _ | .redxor _ _ _ | .concat _ _ _
  | .isunk _ _ _ | .add _ _ _ | .sub _ _ _ => .four .arithOp
  | .bitSlice _ _ _ _ => .four .bitSlice
  | .load _ _ => .four .load
  | .movi _ _ _ => .move

/-- The opcode nibble of an instruction (R80). -/
def Instr.op (i : Instr) : BitVec 4 := opNibble i.opClass

/-- The width of an instruction (R81). -/
def Instr.width (i : Instr) : Width :=
  match i with
  | .trigger | .ret | .timerSet _ _ => .w1
  | .triggerPos _ | .jmp _ | .mov _ _ | .bl _ | .domainSet _ | .display _ | .exec _ | .edgeDetect _ _ _ => .w2
  | .jmpc _ _ _ _ | .and _ _ _ | .or _ _ _ | .xor _ _ _ | .redand _ _ _ | .redor _ _ _ | .redxor _ _ _ | .concat _ _ _
  | .isunk _ _ _ | .add _ _ _ | .sub _ _ _ | .bitSlice _ _ _ _ | .load _ _ => .w4
  | .movi _ _ _ => .w8

/-! ## Field positions -/

/-- A field of an instruction: its lowest bit, its width in the type (R11: bit 0 is the least significant). -/
structure Field (width : Nat) where
  lo : Nat

/-- The field's value in an instruction of `n` bits. -/
def Field.get {w n : Nat} (f : Field w) (i : BitVec n) : BitVec w := i.extractLsb' f.lo w

/-- An instruction of `n` bits that holds `v` in the field and zeros elsewhere. -/
def Field.put {w : Nat} (f : Field w) (n : Nat) (v : BitVec w) : BitVec n := v.setWidth n <<< f.lo

/-! FIELD_LAYOUT: the positions of R80 and R90 to R103. -/

namespace Layout
/-- R80: the opcode in the first byte. -/
def firstByteOp : Field 4 := ⟨4⟩
/-- R80: the opcode of a 1-byte instruction. -/
def op1 : Field 4 := ⟨4⟩
/-- R80: the opcode of a 2-byte instruction. -/
def op2 : Field 4 := ⟨12⟩
/-- R80: the opcode of a 4-byte instruction. -/
def op4 : Field 4 := ⟨28⟩
/-- R80: the opcode of an 8-byte instruction. -/
def op8 : Field 4 := ⟨60⟩
/-- R91. -/
def timerTid : Field 1 := ⟨3⟩
/-- R91. -/
def timerFn : Field 2 := ⟨1⟩
/-- R92. -/
def triggerPos : Field 7 := ⟨5⟩
/-- R93. -/
def jmpOff : Field 8 := ⟨4⟩
/-- R94. -/
def movD : Field 1 := ⟨11⟩
/-- R94. -/
def movRd : Field 4 := ⟨7⟩
/-- R94. -/
def movRs : Field 4 := ⟨3⟩
/-- R95. -/
def blOff : Field 10 := ⟨2⟩
/-- R96. -/
def domain : Field 8 := ⟨4⟩
/-- R97. -/
def lookupId : Field 10 := ⟨2⟩
/-- R98. -/
def edgeRd : Field 4 := ⟨8⟩
/-- R98. -/
def edgeRs : Field 4 := ⟨4⟩
/-- R98. -/
def edgeFn : Field 3 := ⟨1⟩
/-- R99. -/
def jmpcFn : Field 4 := ⟨24⟩
/-- R99. -/
def jmpcRs1 : Field 4 := ⟨20⟩
/-- R99. -/
def jmpcRs2 : Field 4 := ⟨16⟩
/-- R99. -/
def jmpcOff : Field 8 := ⟨8⟩
/-- R100. -/
def arithFn : Field 4 := ⟨24⟩
/-- R100. -/
def arithRd : Field 4 := ⟨20⟩
/-- R100. -/
def arithRs1 : Field 4 := ⟨16⟩
/-- R100. -/
def arithRs2 : Field 4 := ⟨12⟩
/-- R101. -/
def sliceRd : Field 4 := ⟨24⟩
/-- R101. -/
def sliceRs : Field 4 := ⟨20⟩
/-- R101. -/
def sliceStart : Field 5 := ⟨15⟩
/-- R101. -/
def sliceEnd : Field 5 := ⟨10⟩
/-- R102. -/
def loadRd : Field 4 := ⟨24⟩
/-- R102. -/
def loadAddr : Field 24 := ⟨0⟩
/-- R103. -/
def moviRsv : Field 1 := ⟨59⟩
/-- R103. -/
def moviRd : Field 4 := ⟨55⟩
/-- R103. -/
def moviImm : Field 32 := ⟨23⟩
/-- R83: W[59], MOV's discriminator as the window holds it. -/
def windowD : Field 1 := ⟨59⟩
/-- R83: the first two bytes of the window. -/
def windowHalf : Field 16 := ⟨48⟩
/-- R83: W[47:0], the six bytes behind a MOV. -/
def windowRest : Field 48 := ⟨0⟩
end Layout

/-- Timer id 0 or 1 from its bit (R91). -/
def TimerId.ofBit (b : BitVec 1) : TimerId := if b = 1#1 then .t1 else .t0

/-- The bit of a timer id (R91). -/
def TimerId.bit : TimerId → BitVec 1
  | .t0 => 0#1
  | .t1 => 1#1

/-! ## Decoding -/

/-- Why the classifier or the fetch of spec/40_cycle.md R122 rejects the bytes at the pc, in the order of checks of
spec/60_exceptions.md R245. -/
inductive FetchReject where
  /-- The byte at the pc is outside DRAM (R85). -/
  | noByte
  /-- The opcode nibble is unassigned (R86). -/
  | unknownOpcode (op : BitVec 4)
  /-- The eight-byte window of the move family leaves DRAM (R85). -/
  | moveWindow (op : BitVec 4)
  /-- The instruction's end leaves DRAM (40_cycle.md R122). -/
  | truncated (op : BitVec 4) (w : Width)
deriving DecidableEq, Repr

/-- What decoding answers. -/
inductive DecodeResult where
  /-- One instruction of the opcode table. -/
  | instr (i : Instr)
  /-- ARITH_OP with an invalid function, which has no row: it is fetched and faults when it executes
  (spec/43_width4.md R201). Log 7. -/
  | invalidArithFunc (fn : BitVec 4)
  /-- No instruction: the fetch stage faults. -/
  | reject (r : FetchReject)
deriving DecidableEq, Repr

/-- Formats F1 and F1T (R90, R91). -/
def decodeOne (o : OneByteOp) (i : BitVec 8) : Instr :=
  match o with
  | .trigger => .trigger
  | .ret => .ret
  | .timerSet => .timerSet (TimerId.ofBit (Layout.timerTid.get i)) (Layout.timerFn.get i)

/-- Formats F2P, F2J, F2B, F2D, F2X and F2E (R92, R93, R95 to R98). -/
def decodeTwo (o : TwoByteOp) (i : BitVec 16) : Instr :=
  match o with
  | .triggerPos => .triggerPos (Layout.triggerPos.get i)
  | .jmp => .jmp (Layout.jmpOff.get i)
  | .bl => .bl (Layout.blOff.get i)
  | .domainSet => .domainSet (Layout.domain.get i)
  | .display => .display (Layout.lookupId.get i)
  | .exec => .exec (Layout.lookupId.get i)
  | .edgeDetect => .edgeDetect (Layout.edgeRd.get i) (Layout.edgeRs.get i) (Layout.edgeFn.get i)

/-- Formats F4C, F4A, F4S and F4L (R99 to R102). -/
def decodeFour (o : FourByteOp) (i : BitVec 32) : DecodeResult :=
  match o with
  | .jmpc => .instr (.jmpc (Layout.jmpcFn.get i) (Layout.jmpcRs1.get i) (Layout.jmpcRs2.get i) (Layout.jmpcOff.get i))
  | .arithOp =>
    match arithFn? (Layout.arithFn.get i) with
    | some f => .instr (f.instr (Layout.arithRd.get i) (Layout.arithRs1.get i) (Layout.arithRs2.get i))
    | none => .invalidArithFunc (Layout.arithFn.get i)
  | .bitSlice =>
    .instr (.bitSlice (Layout.sliceRd.get i) (Layout.sliceRs.get i) (Layout.sliceStart.get i) (Layout.sliceEnd.get i))
  | .load => .instr (.load (Layout.loadRd.get i) (Layout.loadAddr.get i))

/-- The move family: MOV when W[59] = 1 and W[47:0] = 0, MOVI otherwise (R83, R84, R94, R103). -/
def decodeMove (window : BitVec 64) : Instr :=
  if Layout.windowD.get window = 1#1 ∧ Layout.windowRest.get window = 0#48 then
    .mov (Layout.movRd.get (Layout.windowHalf.get window)) (Layout.movRs.get (Layout.windowHalf.get window))
  else
    .movi (Layout.moviRsv.get window) (Layout.moviRd.get window) (Layout.moviImm.get window)

/-- The decoder, total on any bytes: the bytes from the pc on that lie in DRAM, at most eight of them, the byte at the
pc first. Big-endian: the first byte is the most significant (spec/20_memory.md R63). The order of checks is R83's and
then spec/40_cycle.md R122's. -/
def decode (bytes : List Byte) : DecodeResult :=
  match bytes with
  | [] => .reject .noByte
  | b0 :: rest =>
    match opClass? (Layout.firstByteOp.get b0) with
    | none => .reject (.unknownOpcode (Layout.firstByteOp.get b0))
    | some (.one o) => .instr (decodeOne o b0)
    | some (.two o) =>
      match rest with
      | b1 :: _ => .instr (decodeTwo o (b0 ++ b1))
      | _ => .reject (.truncated (Layout.firstByteOp.get b0) .w2)
    | some (.four o) =>
      match rest with
      | b1 :: b2 :: b3 :: _ => decodeFour o (b0 ++ b1 ++ b2 ++ b3)
      | _ => .reject (.truncated (Layout.firstByteOp.get b0) .w4)
    | some .move =>
      match rest with
      | b1 :: b2 :: b3 :: b4 :: b5 :: b6 :: b7 :: _ =>
        .instr (decodeMove (b0 ++ b1 ++ b2 ++ b3 ++ b4 ++ b5 ++ b6 ++ b7))
      | _ => .reject (.moveWindow (Layout.firstByteOp.get b0))

/-! ## Encoding -/

/-- The two bytes of a 16-bit value, big-endian. -/
def bytes2 (v : BitVec 16) : List Byte := [v.extractLsb' 8 8, v.extractLsb' 0 8]

/-- The four bytes of a 32-bit value, big-endian. -/
def bytes4 (v : BitVec 32) : List Byte :=
  [v.extractLsb' 24 8, v.extractLsb' 16 8, v.extractLsb' 8 8, v.extractLsb' 0 8]

/-- The eight bytes of a 64-bit value, big-endian. -/
def bytes8 (v : BitVec 64) : List Byte :=
  [v.extractLsb' 56 8, v.extractLsb' 48 8, v.extractLsb' 40 8, v.extractLsb' 32 8,
   v.extractLsb' 24 8, v.extractLsb' 16 8, v.extractLsb' 8 8, v.extractLsb' 0 8]

/-- The word of an ARITH_OP function (R109). -/
def encodeArith (f : ArithFn) (rd rs1 rs2 : RegIdx) : BitVec 32 :=
  Layout.op4.put 32 (opNibble (.four .arithOp)) ||| Layout.arithFn.put 32 (arithSelector f)
    ||| Layout.arithRd.put 32 rd ||| Layout.arithRs1.put 32 rs1 ||| Layout.arithRs2.put 32 rs2

/-- The bytes of an instruction, unused bits zero (R89, R109). A MOV's six look-ahead bytes are not part of it (R94):
they are `lookAhead`. -/
def encode (i : Instr) : List Byte :=
  match i with
  | .trigger => [Layout.op1.put 8 i.op]
  | .ret => [Layout.op1.put 8 i.op]
  | .timerSet tid fn => [Layout.op1.put 8 i.op ||| Layout.timerTid.put 8 tid.bit ||| Layout.timerFn.put 8 fn]
  | .triggerPos pos => bytes2 (Layout.op2.put 16 i.op ||| Layout.triggerPos.put 16 pos)
  | .jmp off8 => bytes2 (Layout.op2.put 16 i.op ||| Layout.jmpOff.put 16 off8)
  | .mov rd rs =>
    bytes2 (Layout.op2.put 16 i.op ||| Layout.movD.put 16 1#1 ||| Layout.movRd.put 16 rd ||| Layout.movRs.put 16 rs)
  | .bl off10 => bytes2 (Layout.op2.put 16 i.op ||| Layout.blOff.put 16 off10)
  | .domainSet dom => bytes2 (Layout.op2.put 16 i.op ||| Layout.domain.put 16 dom)
  | .display id => bytes2 (Layout.op2.put 16 i.op ||| Layout.lookupId.put 16 id)
  | .exec id => bytes2 (Layout.op2.put 16 i.op ||| Layout.lookupId.put 16 id)
  | .edgeDetect rd rs fn =>
    bytes2 (Layout.op2.put 16 i.op ||| Layout.edgeRd.put 16 rd ||| Layout.edgeRs.put 16 rs ||| Layout.edgeFn.put 16 fn)
  | .jmpc fn rs1 rs2 off8 =>
    bytes4 (Layout.op4.put 32 i.op ||| Layout.jmpcFn.put 32 fn ||| Layout.jmpcRs1.put 32 rs1
      ||| Layout.jmpcRs2.put 32 rs2 ||| Layout.jmpcOff.put 32 off8)
  | .and rd rs1 rs2 => bytes4 (encodeArith .and rd rs1 rs2)
  | .or rd rs1 rs2 => bytes4 (encodeArith .or rd rs1 rs2)
  | .xor rd rs1 rs2 => bytes4 (encodeArith .xor rd rs1 rs2)
  | .redand rd rs1 rs2 => bytes4 (encodeArith .redand rd rs1 rs2)
  | .redor rd rs1 rs2 => bytes4 (encodeArith .redor rd rs1 rs2)
  | .redxor rd rs1 rs2 => bytes4 (encodeArith .redxor rd rs1 rs2)
  | .concat rd rs1 rs2 => bytes4 (encodeArith .concat rd rs1 rs2)
  | .isunk rd rs1 rs2 => bytes4 (encodeArith .isunk rd rs1 rs2)
  | .add rd rs1 rs2 => bytes4 (encodeArith .add rd rs1 rs2)
  | .sub rd rs1 rs2 => bytes4 (encodeArith .sub rd rs1 rs2)
  | .bitSlice rd rs start stop =>
    bytes4 (Layout.op4.put 32 i.op ||| Layout.sliceRd.put 32 rd ||| Layout.sliceRs.put 32 rs
      ||| Layout.sliceStart.put 32 start ||| Layout.sliceEnd.put 32 stop)
  | .load rd saddr => bytes4 (Layout.op4.put 32 i.op ||| Layout.loadRd.put 32 rd ||| Layout.loadAddr.put 32 saddr)
  | .movi rsv rd imm =>
    bytes8 (Layout.op8.put 64 i.op ||| Layout.moviRsv.put 64 rsv ||| Layout.moviRd.put 64 rd
      ||| Layout.moviImm.put 64 imm)

/-- The bytes that must follow an instruction for it to be classified as itself: six zero bytes behind a MOV (R94), none
behind any other. -/
def lookAhead : Instr → List Byte
  | .mov _ _ => List.replicate 6 0#8
  | .trigger | .ret | .timerSet _ _ | .triggerPos _ | .jmp _ | .bl _ | .domainSet _ | .display _ | .exec _
  | .edgeDetect _ _ _ | .jmpc _ _ _ _ | .and _ _ _ | .or _ _ _ | .xor _ _ _ | .redand _ _ _ | .redor _ _ _
  | .redxor _ _ _ | .concat _ _ _ | .isunk _ _ _ | .add _ _ _ | .sub _ _ _ | .bitSlice _ _ _ _ | .load _ _
  | .movi _ _ _ => []

/-! ## The opcode table's words -/

/-- The eight bytes that hold an instruction of `nbits` bits, numbered as spec/opcode_table.json numbers them (the whole
instruction is one big-endian word, its bit 0 the least significant), with zero bytes behind it. Log 9. -/
def tableBytes (nbits w : Nat) : List Byte :=
  bytes8 (BitVec.ofNat 64 (w <<< (64 - 8 * ((nbits + 7) / 8))))

/-- The instruction the decoder reads from a word of the opcode table. Log 9. -/
def decodeTableWord (nbits w : Nat) : Option Instr :=
  match decode (tableBytes nbits w) with
  | .instr i => some i
  | .invalidArithFunc _ => none
  | .reject _ => none

end Sys2Proof
end

