-- ==== Sys2Proof/Config.lean ====
section
/-! DEFINITION. The default launch parameters (spec/00_scope.md R7, R8) and the names of the alternative readings the
spec gives in full (R19). The reading the model takes of each stands in Sys2Proof/Machine/Readings.lean. -/

namespace Sys2Proof.Config

/-- MEM_BASE's default, 0x8000_0000 (R7, decision D23). -/
def memBaseDefault : Word := 0x80000000#32

/-- MEM_SIZE's default, 32 KiB (R7). -/
def memSizeDefault : Nat := 0x8000

/-- What a DRAM byte that the image does not cover holds: 0x00 (spec/20_memory.md R65, decision D23; the parameter
INIT_FILL of R19). It is the value an unlisted cell of memory reads as. -/
def initFill : Byte := 0x00#8

/-- SNAPSHOT_MODE of R19: `intended` is spec/40_cycle.md R128, `allOnes` the variant R128 describes beside it. -/
inductive SnapshotMode where
  | intended
  | allOnes
deriving DecidableEq, Repr

/-- CONCAT_SRC1_HALF of R19: which half of `rs1` CONCAT takes (spec/43_width4.md R208, decision D11). -/
inductive ConcatHalf where
  | low
  | high
deriving DecidableEq, Repr

end Sys2Proof.Config
end

