-- ==== Sys2Proof/Machine/Readings.lean ====
section
/-! DEFINITION. The readings the model takes where spec/00_scope.md R19 names an alternative and the spec gives the
alternative's effect in full: each at R19's normative default. Log 11. -/

namespace Sys2Proof.Machine.Readings

/-- SNAPSHOT_MODE (spec/40_cycle.md R128). -/
def snapshotMode : Config.SnapshotMode := .intended

/-- CONCAT_SRC1_HALF (spec/43_width4.md R208). -/
def concatSrc1Half : Config.ConcatHalf := .low

end Sys2Proof.Machine.Readings
end

