-- ==== Sys2Proof/Machine/State.lean ====
section
/-! DEFINITION. The state of the block (spec/10_state.md), the launch inputs (spec/00_scope.md R7 to R9,
spec/60_exceptions.md R268), reset (spec/70_reset_and_hazards.md R280), and the reasons a step can stop. -/

namespace Sys2Proof.Machine

/-! ## DRAM -/

/-- The contents of DRAM: the bytes that differ from `Config.initFill`, each with its absolute bus address, addresses
rising. An unlisted address of DRAM reads as `Config.initFill` (spec/20_memory.md R65). Log 12. -/
abbrev Memory := List Host.Cell

/-- The canonical form: addresses strictly rising, no cell that holds what an unlisted address reads as. -/
abbrev Memory.wf (m : Memory) : Prop :=
  m.Pairwise (fun c d => c.1 < d.1) ∧ ∀ c ∈ m, c.2 ≠ Config.initFill

/-- DRAM: `size` bytes from the absolute address `base` on (spec/20_memory.md R60). `base` and `size` are MEM_BASE and
MEM_SIZE, parameters of a run that no step writes (spec/10_state.md R51). Log 1. -/
structure Dram where
  base : Word
  size : Nat
  cells : Memory
deriving DecidableEq, Repr

/-! ## The Info Lookup -/

/-- INFO (spec/00_scope.md R9): the ids that have an entry, and the signal table. A read-only parameter of a run. Log 10. -/
structure Info where
  displays : List (BitVec 10)
  execs : List (BitVec 10)
  domains : List (BitVec 8)
  signals : List (Word × Word)
deriving DecidableEq, Repr

/-- Empty tables: every query misses (spec/70_reset_and_hazards.md R284). -/
def Info.empty : Info := ⟨[], [], [], []⟩

/-! ## Faults of the block, and its run status -/

/-- The nine fatal faults (spec/60_exceptions.md R240). -/
inductive FaultCode where
  | unknownOpcode
  | fetchOutOfRange
  | malformedMovi
  | invalidBitRange
  | unknownSignal
  | unknownExecId
  | invalidArithFunc
  | invalidEdgeFunc
  | invalidJmpcFunc
deriving DecidableEq, Repr

/-- The cause's operand in a fault record: "the function value, the `(start, end)` pair, the signal key or the id"
(spec/60_exceptions.md R241). `none` for the causes that have no such operand. Log 8. -/
inductive FaultInfo where
  | none
  | func (fn : Nat)
  | bitRange (start stop : BitVec 5)
  | signalKey (key : Word)
  | execId (id : BitVec 10)
deriving DecidableEq, Repr

/-- The fault record of spec/60_exceptions.md R241. -/
structure FaultRecord where
  code : FaultCode
  faultPc : Word
  op : Option (BitVec 4)
  width : Option Width
  info : FaultInfo
deriving DecidableEq, Repr

/-- The run status (spec/10_state.md R46). -/
inductive Status where
  | running
  | halted
  | faulted (rec : FaultRecord)
deriving DecidableEq, Repr

/-! ## Trace output -/

/-- The informational events (spec/60_exceptions.md R243). -/
inductive Event where
  | trigger
  | triggerPos (pos : BitVec 7)
  | display (id : BitVec 10)
  | exec (id : BitVec 10)
  | domain (dom : BitVec 8)
  | timerFired (t : TimerId) (target : Word)
deriving DecidableEq, Repr

/-- The warnings W1 to W4 (spec/60_exceptions.md R242). -/
inductive Warning where
  | unknownDisplay (id : BitVec 10)
  | unknownDomain (dom : BitVec 8)
  | timerNoTarget (t : TimerId)
  | invalidTimerFunc (t : TimerId) (fn : BitVec 2)
deriving DecidableEq, Repr

/-- One entry of the trace output (spec/60_exceptions.md R268). -/
inductive TraceItem where
  | event (e : Event)
  | warning (w : Warning)
deriving DecidableEq, Repr

/-! ## The state -/

/-- One timer's registers (spec/10_state.md R42 to R45). `threshold` and `targetPc` have no writer in the block. -/
structure Timer where
  count : Word
  enabled : Bool
  threshold : Word
  targetPc : Word
deriving DecidableEq, Repr

/-- The state of the block (spec/10_state.md R30 to R46). `regs` is the storage R of 17 words of R32: index 0 is the
hard-wired register, read and written through `State.getReg` and `State.setReg` alone, index 16 the link register. `info`
and the base and size in `dram` are parameters of a run, kept here so that a step is a function of the state (log 1).
`trace` is the concatenated trace output, oldest first, which no rule reads (log 3). -/
structure State where
  regs : Vector Word 17
  pc : Word
  prev : Vector Word 16
  domain : BitVec 8
  counters : Vector Word 2
  timer0 : Timer
  timer1 : Timer
  status : Status
  dram : Dram
  info : Info
  trace : List TraceItem
deriving DecidableEq, Repr

/-! ## Reset -/

/-- The launch inputs of spec/60_exceptions.md R268, the image apart. The defaults are those of spec/00_scope.md R7 and
R8 and the empty tables of spec/70_reset_and_hazards.md R280. -/
structure Launch where
  memBase : Word := Config.memBaseDefault
  memSize : Nat := Config.memSizeDefault
  info : Info := Info.empty
  threshold0 : Word := 0#32
  threshold1 : Word := 0#32
  target0 : Word := 0#32
  target1 : Word := 0#32
deriving DecidableEq, Repr

/-- Reset with given launch inputs and DRAM contents (spec/70_reset_and_hazards.md R280). -/
def State.launch (p : Launch) (contents : Memory) : State where
  regs := Vector.replicate 17 0#32
  pc := p.memBase
  prev := Vector.replicate 16 0#32
  domain := 0#8
  counters := Vector.replicate 2 0#32
  timer0 := ⟨0#32, false, p.threshold0, p.target0⟩
  timer1 := ⟨0#32, false, p.threshold1, p.target1⟩
  status := .running
  dram := ⟨p.memBase, p.memSize, contents⟩
  info := p.info
  trace := []

/-- The machine right after reset with the default launch inputs and the empty image. Log 2. -/
def State.reset : State := State.launch {} []

/-! ## The reasons a step or a bus access can stop -/

/-- The bus conditions of spec/60_exceptions.md R244. The bus raises them to its caller. No step of the machine answers
with one: the block turns an out-of-bounds fetch into the state `Faulted(FetchOutOfRange)`, and a fatal fault of the
block is a next state (log 5). Safe. -/
inductive Fault where
  /-- Raised by `Dram.busLoad` and `Dram.busStore` for an access that leaves DRAM (spec/20_memory.md R61). Safe. -/
  | outOfBounds (address bytes : Nat)
  /-- Raised by `Dram.busLoad` and `Dram.busStore` for a width other than 8, 16, 32 and 64 bits (R62). Safe. -/
  | invalidWidth (bits : Nat)
deriving DecidableEq, Repr

/-- The reasons the model gives no meaning. -/
inductive Refusal where
  /-- Raised by an arm of `exec` whose instruction has no meaning yet; no arm is so. Safe. -/
  | notModelled (mnemonic : String)
  /-- Raised by `step` when the launch inputs are illegal: MEM_SIZE = 0 or MEM_BASE + MEM_SIZE > 2^32
  (spec/93_implementation_defined.md I17: `refuse`). Safe. Log 13. -/
  | illegalLaunch
deriving DecidableEq, Repr

end Sys2Proof.Machine
end

