-- ==== Sys2Proof/Machine/Ops.lean ====
section
/-! DEFINITION. The shared operations: DRAM and the bus (spec/20_memory.md), registers and snapshot (spec/10_state.md
R30 to R39), trace output (spec/00_scope.md R17), Info Lookup queries (R9), and the taking of a fatal fault
(spec/40_cycle.md R131, spec/60_exceptions.md R240, R241). The block has no handler and no return from a fault (R247,
R260), so no return operation stands beside it. -/

namespace Sys2Proof.Machine

/-! ## Memory contents -/

/-- One byte: the listed one, or `Config.initFill` for an unlisted address (spec/20_memory.md R65). -/
def Memory.read (m : Memory) (a : Nat) : Byte :=
  match m with
  | [] => Config.initFill
  | (a', b) :: rest => if a = a' then b else Memory.read rest a

/-- Write one byte and keep the canonical form. -/
def Memory.write (m : Memory) (a : Nat) (b : Byte) : Memory :=
  match m with
  | [] => if b = Config.initFill then [] else [(a, b)]
  | (a', b') :: rest =>
    if a < a' then if b = Config.initFill then (a', b') :: rest else (a, b) :: (a', b') :: rest
    else if a = a' then if b = Config.initFill then rest else (a, b) :: rest
    else (a', b') :: Memory.write rest a b

/-- The `n` bytes from `a` on, the byte at the lowest address first. -/
def Memory.readBytes (m : Memory) (a n : Nat) : List Byte :=
  match n with
  | 0 => []
  | k + 1 => m.read a :: Memory.readBytes m (a + 1) k

/-- Write bytes from `a` on. -/
def Memory.writeBytes (m : Memory) (a : Nat) (bytes : List Byte) : Memory :=
  match bytes with
  | [] => m
  | b :: rest => Memory.writeBytes (m.write a b) (a + 1) rest

/-- The contents an image leaves: byte `k` at MEM_BASE + k, the image truncated to MEM_SIZE bytes, every other byte as an
unlisted cell reads (spec/20_memory.md R65, spec/70_reset_and_hazards.md R283). -/
def Memory.ofImage (base : Word) (size : Nat) (image : List Byte) : Memory :=
  Memory.writeBytes [] base.toNat (image.take size)

/-- The host's whole launch: install the launch inputs, load the image, reset (spec/70_reset_and_hazards.md R285). -/
def State.boot (p : Launch) (image : List Byte) : State :=
  State.launch p (Memory.ofImage p.memBase p.memSize image)

/-! ## The bus -/

/-- An unsigned value from bytes, most significant first (spec/20_memory.md R63). -/
def beValue (bytes : List Byte) : Nat :=
  bytes.foldl (fun acc b => acc * 256 + b.toNat) 0

/-- The `n` bytes of `v` modulo 2^(8n), most significant first (R63). -/
def beBytes (n v : Nat) : List Byte :=
  match n with
  | 0 => []
  | k + 1 => BitVec.ofNat 8 (v / 256 ^ k) :: beBytes k v

/-- `inBounds(a, n)` of R61, over unbounded integers. -/
def Dram.inBounds (d : Dram) (a n : Nat) : Bool :=
  decide (d.base.toNat ≤ a ∧ a + n ≤ d.base.toNat + d.size)

/-- The byte count of a legal bus width in bits, none for an illegal width (R62). -/
def busBytes? (bits : Nat) : Option Nat :=
  if bits = 8 ∨ bits = 16 ∨ bits = 32 ∨ bits = 64 then some (bits / 8) else none

/-- The bus load (R61 to R63). It changes nothing (R68). -/
def Dram.busLoad (d : Dram) (a bits : Nat) : Except Fault Nat :=
  match busBytes? bits with
  | none => .error (.invalidWidth bits)
  | some n => if d.inBounds a n then .ok (beValue (d.cells.readBytes a n)) else .error (.outOfBounds a n)

/-- The bus store, which only the host uses and only before a run (R61 to R63, R66). A failing store writes nothing. -/
def Dram.busStore (d : Dram) (a bits v : Nat) : Except Fault Dram :=
  match busBytes? bits with
  | none => .error (.invalidWidth bits)
  | some n =>
    if d.inBounds a n then .ok { d with cells := d.cells.writeBytes a (beBytes n v) } else .error (.outOfBounds a n)

/-- How many of the `n` bytes from `a` on lie in DRAM before its end, 0 if `a` lies below it. -/
def Dram.available (d : Dram) (a n : Nat) : Nat :=
  if d.base.toNat ≤ a then min n (d.base.toNat + d.size - a) else 0

/-- The fetch port: the bytes from `a` on that lie in DRAM, at most `n` (R60, R61, spec/60_exceptions.md R268). -/
def Dram.bytesFrom (d : Dram) (a n : Nat) : List Byte :=
  d.cells.readBytes a (d.available a n)

/-- The host's obligation on the geometry: MEM_SIZE >= 1 and MEM_BASE + MEM_SIZE <= 2^32 (spec/60_exceptions.md R269). -/
def Dram.legal (d : Dram) : Bool :=
  decide (1 ≤ d.size ∧ d.base.toNat + d.size ≤ 2 ^ 32)

/-! ## Info Lookup queries (spec/00_scope.md R9) -/

/-- The display query. -/
def Info.displayHit (f : Info) (id : BitVec 10) : Bool := f.displays.contains id

/-- The exec query. -/
def Info.execHit (f : Info) (id : BitVec 10) : Bool := f.execs.contains id

/-- The domain query. -/
def Info.domainHit (f : Info) (dom : BitVec 8) : Bool := f.domains.contains dom

/-- The signal query: the value of the first entry with the key. -/
def Info.signal (f : Info) (key : Word) : Option Word :=
  (f.signals.find? (fun row => row.1 == key)).map Prod.snd

/-! ## Registers -/

/-- The link register, x[16] (spec/10_state.md R34). -/
def lrIdx : Fin 17 := 16

/-- The register a 4-bit field names, x[0] to x[15] (R33). -/
def fieldReg (r : RegIdx) : Fin 17 := ⟨r.toNat, by omega⟩

/-- `x[i]`: register 0 reads as zero whatever its storage holds (R31, R32). -/
def State.getReg (s : State) (i : Fin 17) : Word :=
  if i = 0 then 0#32 else s.regs[i]

/-- `x[i] <- v`: a write to register 0 has no effect on any state (R32). -/
def State.setReg (s : State) (i : Fin 17) (v : Word) : State :=
  if i = 0 then s else { s with regs := s.regs.set i v }

/-- `x[r]` for a register field. -/
def State.x (s : State) (r : RegIdx) : Word := s.getReg (fieldReg r)

/-- `x[r] <- v` for a register field. -/
def State.setX (s : State) (r : RegIdx) (v : Word) : State := s.setReg (fieldReg r) v

/-- LR. -/
def State.lr (s : State) : Word := s.getReg lrIdx

/-- `LR <- v`. -/
def State.setLr (s : State) (v : Word) : State := s.setReg lrIdx v

/-- `prev[r]` (spec/10_state.md R39). -/
def State.prevAt (s : State) (r : RegIdx) : Word := s.prev[r.toNat]'(by omega)

/-- The pre-execute latch: x[0] to x[15] (spec/40_cycle.md R121). -/
def State.latch (s : State) : Vector Word 16 :=
  Vector.ofFn (fun k => s.getReg ⟨k.val, by omega⟩)

/-- `pc <- v`. -/
def State.setPc (s : State) (v : Word) : State := { s with pc := v }

/-- The pc advance of spec/40_cycle.md R125, modulo 2^32. -/
def State.advance (s : State) (w : Width) : State := { s with pc := s.pc + BitVec.ofNat 32 w.bytes }

/-! ## Timers -/

/-- The registers of timer `t`. -/
def State.timer (s : State) (t : TimerId) : Timer :=
  match t with
  | .t0 => s.timer0
  | .t1 => s.timer1

/-- Replace the registers of timer `t`. -/
def State.setTimer (s : State) (t : TimerId) (r : Timer) : State :=
  match t with
  | .t0 => { s with timer0 := r }
  | .t1 => { s with timer1 := r }

/-! ## Trace output -/

/-- `emit E` (spec/00_scope.md R17). -/
def State.emit (s : State) (e : Event) : State := { s with trace := s.trace ++ [.event e] }

/-- `warn W` (spec/00_scope.md R17). -/
def State.warn (s : State) (w : Warning) : State := { s with trace := s.trace ++ [.warning w] }

/-- The warning codes W1 to W4 (spec/60_exceptions.md R242). -/
def Warning.number : Warning → Nat
  | .unknownDisplay _ => 1
  | .unknownDomain _ => 2
  | .timerNoTarget _ => 3
  | .invalidTimerFunc _ _ => 4

/-! ## Taking a fatal fault -/

/-- The fault codes 1 to 9 (spec/60_exceptions.md R240). -/
def FaultCode.number : FaultCode → Nat
  | .unknownOpcode => 1
  | .fetchOutOfRange => 2
  | .malformedMovi => 3
  | .invalidBitRange => 4
  | .unknownSignal => 5
  | .unknownExecId => 6
  | .invalidArithFunc => 7
  | .invalidEdgeFunc => 8
  | .invalidJmpcFunc => 9

/-- `status <- Faulted(rec)`, and no other state changes (spec/40_cycle.md R131). -/
def State.takeFault (s : State) (rec : FaultRecord) : State := { s with status := .faulted rec }

/-- `raise F(info)` inside the rule of instruction `i`: the pc has already been advanced by the instruction's width, so
the address it was fetched from is the pc less that width (spec/40_cycle.md R127, spec/60_exceptions.md R241; log 6). -/
def raise (i : Instr) (code : FaultCode) (info : FaultInfo) (s : State) : Host.Outcome State Fault Refusal :=
  .next (s.takeFault
    { code := code
      faultPc := s.pc - BitVec.ofNat 32 i.width.bytes
      op := some i.op
      width := some i.width
      info := info })

end Sys2Proof.Machine
end

