-- ==== Sys2Proof/Machine/Operands.lean ====
section
/-! DEFINITION. Operand forms and results: the relative target (spec/42_width2.md R171), the functions of ARITH_OP
(spec/43_width4.md R202 to R211), the bit slice (R212) and the signal key (R213). -/

namespace Sys2Proof.Machine

/-- `target(off)`: the advanced pc plus the sign-extended byte offset, modulo 2^32 (R171, spec/00_scope.md R13). -/
def State.target {n : Nat} (s : State) (off : BitVec n) : Word := s.pc + off.signExtend 32

/-- The number of one bits. -/
def popcount (a : Word) : Nat := (List.range 32).countP (fun k => a.getLsbD k)

/-- `{v[15:0]}` of the half of `rs1` that CONCAT takes (R208; the reading is `Readings.concatSrc1Half`). -/
def concatFirst (half : Config.ConcatHalf) (a : Word) : BitVec 16 :=
  match half with
  | .low => a.extractLsb' 0 16
  | .high => a.extractLsb' 16 16

/-- F[0] to F[9] of ARITH_OP: the result from a = x[rs1] and b = x[rs2] (R202 to R211). -/
def arithResult (f : ArithFn) (a b : Word) : Word :=
  match f with
  | .and => a &&& b
  | .or => a ||| b
  | .xor => a ^^^ b
  | .redand => if a = 0xFFFFFFFF#32 then 1#32 else 0#32
  | .redor => if a ≠ 0#32 then 1#32 else 0#32
  | .redxor => BitVec.ofNat 32 (popcount a % 2)
  | .concat => concatFirst Readings.concatSrc1Half a ++ b.extractLsb' 0 16
  | .isunk => 1#32
  | .add => a + b
  | .sub => a - b

/-- `zext_32(v[stop:start])`, for start <= stop (R212). -/
def sliceResult (v : Word) (start stop : BitVec 5) : Word :=
  (v.extractLsb' start.toNat (stop.toNat - start.toNat + 1)).setWidth 32

/-- The 32-bit key of a LOAD: `zext_32(saddr)` (R213, decision D14). -/
def signalKey (saddr : BitVec 24) : Word := saddr.setWidth 32

end Sys2Proof.Machine
end

