-- ==== Sys2Proof/Machine/Width1.lean ====
section
/-! DEFINITION. The meanings of the one-byte instructions (spec/41_width1.md). A meaning starts from the state whose pc
has already been advanced by the instruction's width (spec/00_scope.md R18, spec/40_cycle.md R125; log 6). -/

namespace Sys2Proof.Machine

/-- TRIGGER (R150): emit the Trigger event, no other effect. -/
def execTrigger (s : State) : Host.Outcome State Fault Refusal :=
  .next (s.emit .trigger)

/-- RET (R151): pc <- LR, then LR <- 0. -/
def execRet (s : State) : Host.Outcome State Fault Refusal :=
  .next ((s.setPc s.lr).setLr 0#32)

/-- TIMER_SET (R152): fn 0 resets the counter of timer `tid`, 1 disables it, 2 enables it; 3 is the warning
InvalidTimerFunc and changes no state. -/
def execTimerSet (tid : TimerId) (fn : BitVec 2) (s : State) : Host.Outcome State Fault Refusal :=
  if fn = 0#2 then .next (s.setTimer tid { s.timer tid with count := 0#32 })
  else if fn = 1#2 then .next (s.setTimer tid { s.timer tid with enabled := false })
  else if fn = 2#2 then .next (s.setTimer tid { s.timer tid with enabled := true })
  else .next (s.warn (.invalidTimerFunc tid fn))

end Sys2Proof.Machine
end

