-- ==== Sys2Proof/Machine/Flags.lean ====
section
/-! DEFINITION. Conditions. The block has no flags or condition codes (spec/10_state.md R47): JMPC compares registers
directly and EDGE_DETECT writes its result into a register. This file holds their selector tables (spec/30_encoding.md
R105) and the conditions they select (spec/42_width2.md R172, R181, spec/43_width4.md R200). -/

namespace Sys2Proof.Machine

/-- The seven functions of EDGE_DETECT (R181). -/
inductive EdgeFn where
  | rising
  | falling
  | anyTransition
  | stableLow
  | stableHigh
  | stable
  | alwaysTrue
deriving DecidableEq, Repr

/-- EDGE_FUNC_MAP (R105, decision D12). 7 is invalid. -/
def edgeFuncMap : List (BitVec 3 × EdgeFn) :=
  [(0#3, .rising), (1#3, .falling), (2#3, .anyTransition), (3#3, .stableLow), (4#3, .stableHigh), (5#3, .stable),
   (6#3, .alwaysTrue)]

/-- The function a selector names, none for an invalid one. -/
def edgeFn? (fn : BitVec 3) : Option EdgeFn :=
  (edgeFuncMap.find? (fun row => row.1 == fn)).map Prod.snd

/-- The eight functions of JMPC (R200). -/
inductive JmpcFn where
  | eq
  | ne
  | gt
  | lt
  | ge
  | le
  | rising
  | falling
deriving DecidableEq, Repr

/-- The function selectors of JMPC (R105). 8 to 15 are invalid. -/
def jmpcFuncMap : List (BitVec 4 × JmpcFn) :=
  [(0#4, .eq), (1#4, .ne), (2#4, .gt), (3#4, .lt), (4#4, .ge), (5#4, .le), (6#4, .rising), (7#4, .falling)]

/-- The function a selector names, none for an invalid one. -/
def jmpcFn? (fn : BitVec 4) : Option JmpcFn :=
  (jmpcFuncMap.find? (fun row => row.1 == fn)).map Prod.snd

/-- `cur(r) = x[r][0]` (R172). -/
def State.curBit (s : State) (r : RegIdx) : Bool := (s.x r).getLsbD 0

/-- `old(r) = prev[r][0]` (R172). -/
def State.oldBit (s : State) (r : RegIdx) : Bool := (s.prevAt r).getLsbD 0

/-- The condition of an EDGE_DETECT function on the old and the current bit (R181). -/
def edgeHolds (f : EdgeFn) (old cur : Bool) : Bool :=
  match f with
  | .rising => !old && cur
  | .falling => old && !cur
  | .anyTransition => old != cur
  | .stableLow => !old && !cur
  | .stableHigh => old && cur
  | .stable => old == cur
  | .alwaysTrue => true

/-- The condition of a JMPC function: `x[rs1] OP x[rs2]`, unsigned, or an edge of bit 0 of `rs1` (R200). -/
def jmpcHolds (f : JmpcFn) (rs1 rs2 : RegIdx) (s : State) : Bool :=
  match f with
  | .eq => s.x rs1 == s.x rs2
  | .ne => s.x rs1 != s.x rs2
  | .gt => decide (s.x rs1 > s.x rs2)
  | .lt => decide (s.x rs1 < s.x rs2)
  | .ge => decide (s.x rs1 ≥ s.x rs2)
  | .le => decide (s.x rs1 ≤ s.x rs2)
  | .rising => edgeHolds .rising (s.oldBit rs1) (s.curBit rs1)
  | .falling => edgeHolds .falling (s.oldBit rs1) (s.curBit rs1)

end Sys2Proof.Machine
end

