-- ==== Sys2Proof/Machine/Width2.lean ====
section
/-! DEFINITION. The meanings of the two-byte instructions (spec/42_width2.md). A meaning starts from the state whose pc
has already been advanced by the instruction's width (R170; log 6). -/

namespace Sys2Proof.Machine

/-- TRIGGER_POS (R173): emit the sample position. -/
def execTriggerPos (pos : BitVec 7) (s : State) : Host.Outcome State Fault Refusal :=
  .next (s.emit (.triggerPos pos))

/-- JMP (R174): pc <- target(off8). -/
def execJmp (off8 : BitVec 8) (s : State) : Host.Outcome State Fault Refusal :=
  .next (s.setPc (s.target off8))

/-- MOV (R175): x[rd] <- x[rs]. -/
def execMov (rd rs : RegIdx) (s : State) : Host.Outcome State Fault Refusal :=
  .next (s.setX rd (s.x rs))

/-- BL (R176): LR <- pc, then pc <- target(off10), the target computed from the advanced pc. -/
def execBl (off10 : BitVec 10) (s : State) : Host.Outcome State Fault Refusal :=
  .next ((s.setLr s.pc).setPc (s.target off10))

/-- DOMAIN_SET (R178): domain <- dom, on a hit and on a miss alike; a hit emits Domain, a miss warns UnknownDomain. -/
def execDomainSet (dom : BitVec 8) (s : State) : Host.Outcome State Fault Refusal :=
  let t : State := { s with domain := dom }
  if s.info.domainHit dom then .next (t.emit (.domain dom)) else .next (t.warn (.unknownDomain dom))

/-- DISPLAY (R179): a hit emits Display, a miss warns UnknownDisplay. -/
def execDisplay (id : BitVec 10) (s : State) : Host.Outcome State Fault Refusal :=
  if s.info.displayHit id then .next (s.emit (.display id)) else .next (s.warn (.unknownDisplay id))

/-- EXEC (R180): a hit emits Exec, a miss raises the fatal UnknownExecId. -/
def execExec (id : BitVec 10) (s : State) : Host.Outcome State Fault Refusal :=
  if s.info.execHit id then .next (s.emit (.exec id)) else raise (.exec id) .unknownExecId (.execId id) s

/-- EDGE_DETECT (R181): x[rd] <- 1 or 0 by the edge test of bit 0 of `rs`; fn 7 raises the fatal InvalidEdgeFunc. -/
def execEdgeDetect (rd rs : RegIdx) (fn : BitVec 3) (s : State) : Host.Outcome State Fault Refusal :=
  match edgeFn? fn with
  | some f => .next (s.setX rd (if edgeHolds f (s.oldBit rs) (s.curBit rs) then 1#32 else 0#32))
  | none => raise (.edgeDetect rd rs fn) .invalidEdgeFunc (.func fn.toNat) s

end Sys2Proof.Machine
end

