-- ==== Sys2Proof/Machine/Width4.lean ====
section
/-! DEFINITION. The meanings of the four-byte instructions (spec/43_width4.md). A meaning starts from the state whose pc
has already been advanced by the instruction's width (log 6). -/

namespace Sys2Proof.Machine

/-- JMPC (R200): if the condition holds, pc <- target(off8); fn 8 to 15 raise the fatal InvalidJmpcFunc. -/
def execJmpc (fn : BitVec 4) (rs1 rs2 : RegIdx) (off8 : BitVec 8) (s : State) : Host.Outcome State Fault Refusal :=
  match jmpcFn? fn with
  | some f => if jmpcHolds f rs1 rs2 s then .next (s.setPc (s.target off8)) else .next s
  | none => raise (.jmpc fn rs1 rs2 off8) .invalidJmpcFunc (.func fn.toNat) s

/-- The shared operation of ARITH_OP (R201): x[rd] <- F[fn](x[rs1], x[rs2]). -/
def arithOp (f : ArithFn) (rd rs1 rs2 : RegIdx) (s : State) : Host.Outcome State Fault Refusal :=
  .next (s.setX rd (arithResult f (s.x rs1) (s.x rs2)))

/-- AND (R202). -/
def execAnd (rd rs1 rs2 : RegIdx) (s : State) : Host.Outcome State Fault Refusal := arithOp .and rd rs1 rs2 s

/-- OR (R203). -/
def execOr (rd rs1 rs2 : RegIdx) (s : State) : Host.Outcome State Fault Refusal := arithOp .or rd rs1 rs2 s

/-- XOR (R204). -/
def execXor (rd rs1 rs2 : RegIdx) (s : State) : Host.Outcome State Fault Refusal := arithOp .xor rd rs1 rs2 s

/-- REDAND (R205): the second operand is not used. -/
def execRedand (rd rs1 rs2 : RegIdx) (s : State) : Host.Outcome State Fault Refusal := arithOp .redand rd rs1 rs2 s

/-- REDOR (R206): the second operand is not used. -/
def execRedor (rd rs1 rs2 : RegIdx) (s : State) : Host.Outcome State Fault Refusal := arithOp .redor rd rs1 rs2 s

/-- REDXOR (R207): the second operand is not used. -/
def execRedxor (rd rs1 rs2 : RegIdx) (s : State) : Host.Outcome State Fault Refusal := arithOp .redxor rd rs1 rs2 s

/-- CONCAT (R208). -/
def execConcat (rd rs1 rs2 : RegIdx) (s : State) : Host.Outcome State Fault Refusal := arithOp .concat rd rs1 rs2 s

/-- ISUNK (R209): the constant 1. -/
def execIsunk (rd rs1 rs2 : RegIdx) (s : State) : Host.Outcome State Fault Refusal := arithOp .isunk rd rs1 rs2 s

/-- ADD (R210). -/
def execAdd (rd rs1 rs2 : RegIdx) (s : State) : Host.Outcome State Fault Refusal := arithOp .add rd rs1 rs2 s

/-- SUB (R211). -/
def execSub (rd rs1 rs2 : RegIdx) (s : State) : Host.Outcome State Fault Refusal := arithOp .sub rd rs1 rs2 s

/-- BIT_SLICE (R212): x[rd] <- zext_32(x[rs][stop:start]); start > stop raises the fatal InvalidBitRange. -/
def execBitSlice (rd rs : RegIdx) (start stop : BitVec 5) (s : State) : Host.Outcome State Fault Refusal :=
  if start.toNat > stop.toNat then raise (.bitSlice rd rs start stop) .invalidBitRange (.bitRange start stop) s
  else .next (s.setX rd (sliceResult (s.x rs) start stop))

/-- LOAD (R213): x[rd] <- the signal table's value; a missing key raises the fatal UnknownSignal, whatever rd is. -/
def execLoad (rd : RegIdx) (saddr : BitVec 24) (s : State) : Host.Outcome State Fault Refusal :=
  match s.info.signal (signalKey saddr) with
  | some v => .next (s.setX rd v)
  | none => raise (.load rd saddr) .unknownSignal (.signalKey (signalKey saddr)) s

end Sys2Proof.Machine
end

