-- ==== Sys2Proof/Machine/Width8.lean ====
section
/-! DEFINITION. The meaning of the eight-byte instruction (spec/44_width8.md). It starts from the state whose pc has
already been advanced by 8 (log 6). -/

namespace Sys2Proof.Machine

/-- MOVI (R230): x[rd] <- imm; a set reserved bit raises the fatal MalformedMovi and writes no register. -/
def execMovi (rsv : BitVec 1) (rd : RegIdx) (imm : BitVec 32) (s : State) : Host.Outcome State Fault Refusal :=
  if rsv = 1#1 then raise (.movi rsv rd imm) .malformedMovi .none s else .next (s.setX rd imm)

end Sys2Proof.Machine
end

