-- ==== Sys2Proof/Machine/Dispatch.lean ====
section
/-! DEFINITION. Dispatch (spec/40_cycle.md R126): one arm per constructor of Instr. -/

namespace Sys2Proof.Machine

def exec (i : Instr) (s : State) : Host.Outcome State Fault Refusal :=
  match i with
  | .trigger => Sys2Proof.Machine.execTrigger s
  | .ret => Sys2Proof.Machine.execRet s
  | .timerSet tid fn => Sys2Proof.Machine.execTimerSet tid fn s
  | .triggerPos pos => Sys2Proof.Machine.execTriggerPos pos s
  | .jmp off8 => Sys2Proof.Machine.execJmp off8 s
  | .mov rd rs => Sys2Proof.Machine.execMov rd rs s
  | .bl off10 => Sys2Proof.Machine.execBl off10 s
  | .domainSet dom => Sys2Proof.Machine.execDomainSet dom s
  | .display id => Sys2Proof.Machine.execDisplay id s
  | .exec id => Sys2Proof.Machine.execExec id s
  | .edgeDetect rd rs fn => Sys2Proof.Machine.execEdgeDetect rd rs fn s
  | .jmpc fn rs1 rs2 off8 => Sys2Proof.Machine.execJmpc fn rs1 rs2 off8 s
  | .and rd rs1 rs2 => Sys2Proof.Machine.execAnd rd rs1 rs2 s
  | .or rd rs1 rs2 => Sys2Proof.Machine.execOr rd rs1 rs2 s
  | .xor rd rs1 rs2 => Sys2Proof.Machine.execXor rd rs1 rs2 s
  | .redand rd rs1 rs2 => Sys2Proof.Machine.execRedand rd rs1 rs2 s
  | .redor rd rs1 rs2 => Sys2Proof.Machine.execRedor rd rs1 rs2 s
  | .redxor rd rs1 rs2 => Sys2Proof.Machine.execRedxor rd rs1 rs2 s
  | .concat rd rs1 rs2 => Sys2Proof.Machine.execConcat rd rs1 rs2 s
  | .isunk rd rs1 rs2 => Sys2Proof.Machine.execIsunk rd rs1 rs2 s
  | .add rd rs1 rs2 => Sys2Proof.Machine.execAdd rd rs1 rs2 s
  | .sub rd rs1 rs2 => Sys2Proof.Machine.execSub rd rs1 rs2 s
  | .bitSlice rd rs start stop => Sys2Proof.Machine.execBitSlice rd rs start stop s
  | .load rd saddr => Sys2Proof.Machine.execLoad rd saddr s
  | .movi rsv rd imm => Sys2Proof.Machine.execMovi rsv rd imm s

end Sys2Proof.Machine
end

