-- ==== Sys2Proof/Machine/Timers.lean ====
section
/-! DEFINITION. The timer unit's tick (spec/60_exceptions.md R248 to R260). A redirect is the block's only interrupt entry:
it writes the pc and the timer's count, and saves nothing (R259). -/

namespace Sys2Proof.Machine

/-- The tick of one timer (the loop body of R255). -/
def tickTimer (t : TimerId) (s : State) : State :=
  if (s.timer t).enabled then
    let count := (s.timer t).count + 1#32
    if count ≥ (s.timer t).threshold then
      let cleared := s.setTimer t { s.timer t with count := 0#32 }
      if (s.timer t).targetPc ≠ 0#32 then
        (cleared.setPc (s.timer t).targetPc).emit (.timerFired t (s.timer t).targetPc)
      else cleared.warn (.timerNoTarget t)
    else s.setTimer t { s.timer t with count := count }
  else s

/-- The tick (R255): timer 0, then timer 1. -/
def timerTick (s : State) : State := tickTimer .t1 (tickTimer .t0 s)

end Sys2Proof.Machine
end

