-- ==== Sys2Proof/Machine/Cycle.lean ====
section
/-! DEFINITION. The cycle (spec/40_cycle.md R120 to R132): FETCH, EXECUTE, SNAPSHOT, TICK, CHECK. -/

namespace Sys2Proof.Machine

/-! ## FETCH -/

/-- Classify and read the instruction at the pc (R122, R123; spec/30_encoding.md R83): decode the DRAM bytes from the pc
on, at most eight. -/
def fetch (s : State) : DecodeResult := decode (s.dram.bytesFrom s.pc.toNat 8)

/-- The fault code of a fetch-stage rejection (spec/60_exceptions.md R240). -/
def FetchReject.code : FetchReject → FaultCode
  | .noByte => .fetchOutOfRange
  | .unknownOpcode _ => .unknownOpcode
  | .moveWindow _ => .fetchOutOfRange
  | .truncated _ _ => .fetchOutOfRange

/-- The opcode nibble, when the byte at the pc could be read (spec/60_exceptions.md R241). -/
def FetchReject.op : FetchReject → Option (BitVec 4)
  | .noByte => none
  | .unknownOpcode op => some op
  | .moveWindow op => some op
  | .truncated op _ => some op

/-- The classified width, when classification succeeded (spec/60_exceptions.md R241). -/
def FetchReject.width : FetchReject → Option Width
  | .noByte => none
  | .unknownOpcode _ => none
  | .moveWindow _ => none
  | .truncated _ w => some w

/-- The record of a fetch-stage fault at the pc. -/
def FetchReject.record (r : FetchReject) (pc : Word) : FaultRecord :=
  { code := FetchReject.code r, faultPc := pc, op := FetchReject.op r, width := FetchReject.width r, info := .none }

/-! ## EXECUTE of an ARITH_OP with an invalid function -/

/-- The state after ARITH_OP with an invalid function, from the state at the start of the cycle: the pc is advanced, then
the fatal InvalidArithFunc is raised (spec/43_width4.md R201, R127; log 7). -/
def arithFault (fn : BitVec 4) (s : State) : State :=
  (s.advance .w4).takeFault
    { code := .invalidArithFunc
      faultPc := s.pc
      op := some (opNibble (.four .arithOp))
      width := some .w4
      info := .func fn.toNat }

/-! ## SNAPSHOT and CHECK -/

/-- What SNAPSHOT writes from the pre-execute latch (R128; the reading is `Readings.snapshotMode`). -/
def snapshotOf (mode : Config.SnapshotMode) (pre : Vector Word 16) : Vector Word 16 :=
  match mode with
  | .intended => pre
  | .allOnes => Vector.replicate 16 0xFFFFFFFF#32

/-- SNAPSHOT (R128). -/
def snapshot (pre : Vector Word 16) (s : State) : State := { s with prev := snapshotOf Readings.snapshotMode pre }

/-- CHECK (R132): a pc of 0 after TICK ends the run. -/
def check (s : State) : State := if s.pc = 0#32 then { s with status := .halted } else s

/-! ## The cycle -/

/-- SNAPSHOT, TICK and CHECK, in this order (R120), for an instruction that raised no fatal fault; a fatal fault ends the
cycle at once (R131). -/
def complete (pre : Vector Word 16) (t : State) : State :=
  match t.status with
  | .running => check (timerTick (snapshot pre t))
  | .halted => t
  | .faulted _ => t

/-- The end of a cycle, from what EXECUTE answered. -/
def finish (pre : Vector Word 16) (o : Host.Outcome State Fault Refusal) : Host.Outcome State Fault Refusal :=
  match o with
  | .next t => .next (complete pre t)
  | .fault f => .fault f
  | .refused r => .refused r

/-- One cycle from a running state (R121): latch x[0..15], advance the pc, dispatch, finish. -/
def cycle (s : State) : Host.Outcome State Fault Refusal :=
  match fetch s with
  | .reject r => .next (s.takeFault (FetchReject.record r s.pc))
  | .invalidArithFunc fn => .next (arithFault fn s)
  | .instr i => finish s.latch (exec i (s.advance i.width))

/-- One step. A cycle is taken only when the status is Running (R120); an ended run stays as it is
(spec/10_state.md R46, log 4). Illegal launch inputs are refused (spec/93_implementation_defined.md I17, log 13). -/
def runStep (s : State) : Host.Outcome State Fault Refusal :=
  match s.status with
  | .running => if s.dram.legal then cycle s else .refused .illegalLaunch
  | .halted => .next s
  | .faulted _ => .next s

/-! ## Placing an instruction -/

/-- The host's placing of bytes at the pc, as far as they lie in DRAM, in a running state. -/
def placeAtPc (s : State) (bytes : List Byte) : State :=
  { s with
    status := .running
    dram := { s.dram with
      cells := s.dram.cells.writeBytes s.pc.toNat (bytes.take (s.dram.available s.pc.toNat bytes.length)) } }

end Sys2Proof.Machine
end

