-- ==== Sys2Proof/Machine/Step.lean ====
section
/-! DEFINITION. The step, and the placing of an instruction where the step fetches its next one. -/

namespace Sys2Proof.Machine

/-- One instruction cycle (spec/40_cycle.md R120, R121). -/
def step (s : State) : Host.Outcome State Fault Refusal := runStep s

/-- `s` with an instruction of `nbits` bits (numbered as spec/opcode_table.json numbers them, zero bytes behind it, eight
bytes in all) in DRAM at the pc, and the status Running so that a cycle is taken. It stands for the host's load of a
program. Logs 2 and 9. -/
def State.withFetchWord (s : State) (nbits w : Nat) : State := placeAtPc s (tableBytes nbits w)

end Sys2Proof.Machine
end

