-- ==== Sys2Proof/Safety.lean ====
section
/-! DEFINITION. What the claims are stated in: the frame predicates, the fault stages, and the invariant of the block. -/

namespace Sys2Proof.Machine

/-- The parts of the state that an instruction rule writes only where its own rule says so, registers, pc and trace
apart. Memory is compared through the read of one byte as well. -/
structure Kept (s t : State) : Prop where
  prev : t.prev = s.prev
  domain : t.domain = s.domain
  counters : t.counters = s.counters
  timer0 : t.timer0 = s.timer0
  timer1 : t.timer1 = s.timer1
  status : t.status = s.status
  info : t.info = s.info
  dram : t.dram = s.dram
  bytes : ∀ a, t.dram.cells.read a = s.dram.cells.read a

/-- From `s` to `t` the one register `r` takes the value `v` and nothing else changes; where `r` is register 0 nothing
changes at all (spec/10_state.md R31, R32). -/
structure WritesReg (s t : State) (r : Fin 17) (v : Word) : Prop where
  value : t.getReg r = if r = 0 then 0#32 else v
  zero : r = 0 → t = s
  others : ∀ j : Fin 17, j ≠ r → t.getReg j = s.getReg j
  pc : t.pc = s.pc
  trace : t.trace = s.trace
  kept : Kept s t

/-- The status `Faulted` of a fatal fault that an instruction raises, from the address and the instruction
(spec/60_exceptions.md R241). -/
def faultedAt (address : Word) (code : FaultCode) (op : BitVec 4) (w : Width) (info : FaultInfo) : Status :=
  .faulted { code := code, faultPc := address, op := some op, width := some w, info := info }

/-- The faults of the fetch stage (spec/60_exceptions.md R240, column "stage"). -/
def FaultCode.atFetch : FaultCode → Bool
  | .unknownOpcode | .fetchOutOfRange => true
  | .malformedMovi | .invalidBitRange | .unknownSignal | .unknownExecId | .invalidArithFunc | .invalidEdgeFunc
  | .invalidJmpcFunc => false

/-- How far the pc stands beyond the faulting instruction's address (spec/60_exceptions.md R240, column "pc after"). -/
def FaultCode.pcAdvance : FaultCode → Nat
  | .unknownOpcode | .fetchOutOfRange => 0
  | .unknownExecId | .invalidEdgeFunc => 2
  | .invalidBitRange | .unknownSignal | .invalidArithFunc | .invalidJmpcFunc => 4
  | .malformedMovi => 8

/-- The number of an ARITH_OP function (spec/30_encoding.md R105). -/
def arithNumber : ArithFn → Nat
  | .and => 0
  | .or => 1
  | .xor => 2
  | .redand => 3
  | .redor => 4
  | .redxor => 5
  | .concat => 6
  | .isunk => 7
  | .add => 8
  | .sub => 9

/-- The state without its outputs and reserved state: `domain`, `counters` and `trace`, which no rule reads
(spec/10_state.md R40, R41, spec/00_scope.md R17). -/
def State.withoutOutputs (s : State) : State :=
  { s with domain := 0#8, counters := Vector.replicate 2 0#32, trace := [] }

/-- The state with `w` in the storage behind register 0, which no accessor reads (log 15). -/
def State.withStoredZero (s : State) (w : Word) : State := { s with regs := s.regs.set 0 w }

/-- In the coming tick the timer reaches its threshold (spec/60_exceptions.md R255). -/
def Timer.reaches (t : Timer) : Prop := t.enabled = true ∧ t.count + 1#32 ≥ t.threshold

/-- In the coming tick the timer fires with a target, so it redirects the pc (spec/60_exceptions.md R256). -/
def Timer.redirects (t : Timer) : Prop := t.reaches ∧ t.targetPc ≠ 0#32

/-- A timer's count is 0 or below its threshold, so its increment never wraps (spec/60_exceptions.md R257). -/
def Timer.bounded (t : Timer) : Prop := t.count = 0#32 ∨ t.count < t.threshold

/-- The invariant of the block. -/
structure State.Inv (s : State) : Prop where
  /-- DRAM's contents have their canonical form (log 12). -/
  canonical : s.dram.cells.wf
  /-- Every listed byte lies in DRAM (spec/20_memory.md R60, R69). -/
  inside : ∀ c ∈ s.dram.cells, s.dram.base.toNat ≤ c.1 ∧ c.1 < s.dram.base.toNat + s.dram.size
  /-- The geometry is one the host may give (spec/60_exceptions.md R269). -/
  legal : s.dram.legal = true
  /-- Snapshot entry 0 is 0 (spec/10_state.md R39). -/
  prevZero : s.prevAt 0 = 0#32
  /-- The reserved counters hold 0 (spec/10_state.md R41). -/
  counters : s.counters = Vector.replicate 2 0#32
  /-- No timer count passes its threshold (spec/60_exceptions.md R257). -/
  timers : s.timer0.bounded ∧ s.timer1.bounded
  /-- A halted run stands at pc 0 (spec/40_cycle.md R132). -/
  halted : s.status = .halted → s.pc = 0#32
  /-- A faulted run stands where the fault table says (spec/60_exceptions.md R240). -/
  faulted : ∀ rec, s.status = .faulted rec → s.pc = rec.faultPc + BitVec.ofNat 32 rec.code.pcAdvance

end Sys2Proof.Machine
end

