-- ==== Sys2Proof/WellFormed.lean ====
section
/-! DEFINITION. Two checks of an instruction as syntax: `wellFormed`, the encoding formulas of spec/30_encoding.md R109
give a word that decodes to it; `legal`, no illegal encoding of R106. -/

namespace Sys2Proof

/-- The word that R109's formula writes for the instruction, its unused bits zero, is classified as this instruction.
The one term for which it is not: a MOVI with its reserved bit set and W[47:0] zero, which is the word of a MOV (R83,
R110). W[47:0] is the low 25 bits of the immediate above 23 unused bits (R103). -/
def Instr.wellFormed : Instr → Bool
  | .movi rsv _ imm => rsv == 0#1 || imm.extractLsb' 0 25 != 0#25
  | .trigger | .ret | .timerSet _ _ | .triggerPos _ | .jmp _ | .mov _ _ | .bl _ | .domainSet _ | .display _ | .exec _
  | .edgeDetect _ _ _ | .jmpc _ _ _ _ | .and _ _ _ | .or _ _ _ | .xor _ _ _ | .redand _ _ _ | .redor _ _ _
  | .redxor _ _ _ | .concat _ _ _ | .isunk _ _ _ | .add _ _ _ | .sub _ _ _ | .bitSlice _ _ _ _ | .load _ _ => true

/-- None of the illegal encodings that R106 lists for a decoded instruction (all fatal when executed): MOVI's reserved
bit, EDGE_DETECT fn 7, JMPC fn 8 to 15, BIT_SLICE with start > end. TIMER_SET fn 3 is invalid but not fatal, so it is
legal here. -/
def Instr.legal : Instr → Bool
  | .movi rsv _ _ => rsv == 0#1
  | .edgeDetect _ _ fn => fn != 7#3
  | .jmpc fn _ _ _ => decide (fn.toNat < 8)
  | .bitSlice _ _ start stop => decide (start.toNat ≤ stop.toNat)
  | .trigger | .ret | .timerSet _ _ | .triggerPos _ | .jmp _ | .mov _ _ | .bl _ | .domainSet _ | .display _ | .exec _
  | .and _ _ _ | .or _ _ _ | .xor _ _ _ | .redand _ _ _ | .redor _ _ _ | .redxor _ _ _ | .concat _ _ _
  | .isunk _ _ _ | .add _ _ _ | .sub _ _ _ | .load _ _ => true

end Sys2Proof
end

