-- ==== Sys2Proof/Certificates/Slice0/Obligations.lean ====
section
/-! DEFINITION. The statements for the provers. In each, the instruction rules start from the state whose pc has already
been advanced by the instruction's width, as the spec's rules do (spec/00_scope.md R18; log 6). -/

open Sys2Proof Sys2Proof.Machine

/-! ## Reset and launch -/

/-- spec/70_reset_and_hazards.md R280: what reset leaves, for all launch inputs. The zeros are the spec's decision D22,
the thresholds and targets D21. The empty trace is the model's choice (log 3). -/
def Obligations.ResetLeavesTheListedValues : Prop :=
  ∀ (p : Launch) (image : List Byte),
    let s := State.boot p image
    (∀ i : Fin 17, s.getReg i = 0#32) ∧ s.pc = p.memBase ∧ (∀ r, s.prevAt r = 0#32) ∧ s.domain = 0#8 ∧
    s.counters = Vector.replicate 2 0#32 ∧
    s.timer0 = ⟨0#32, false, p.threshold0, p.target0⟩ ∧ s.timer1 = ⟨0#32, false, p.threshold1, p.target1⟩ ∧
    s.status = .running ∧ s.dram.base = p.memBase ∧ s.dram.size = p.memSize ∧ s.info = p.info ∧ s.trace = [] ∧
    State.reset = State.boot {} []

/-- spec/20_memory.md R65, spec/70_reset_and_hazards.md R283: the image stands verbatim from MEM_BASE on, truncated to
MEM_SIZE bytes, and every byte of DRAM behind it reads 0x00 (decision D23). An address outside DRAM is unmapped (R69) and
no bus access reaches it; that the contents read 0x00 there too is the model's representation, no rule of the spec
(log 12). -/
def Obligations.ImageIsLoadedVerbatim : Prop :=
  ∀ (p : Launch) (image : List Byte) (a : Nat),
    (State.boot p image).dram.cells.read a =
      if p.memBase.toNat ≤ a ∧ a < p.memBase.toNat + p.memSize then image.getD (a - p.memBase.toNat) 0x00#8 else 0x00#8

/-! ## The bus -/

/-- spec/20_memory.md R63: a load composes its bytes most significant first. -/
def Obligations.BusLoadIsBigEndian : Prop :=
  ∀ (d : Dram) (a n : Nat), n ∈ [1, 2, 4, 8] → d.inBounds a n = true →
    d.busLoad a (8 * n) = .ok (∑ k ∈ Finset.range n, (d.cells.read (a + k)).toNat * 256 ^ (n - 1 - k))

/-- spec/20_memory.md R64: after a store of `n` bytes at `a`, a load of any legal width inside them sees exactly those
bytes; a load of the same width gives `v mod 2^width`; every other byte reads as before. The contents are in their
canonical form (log 12), which every launch establishes, every step keeps (`EveryStepKeepsTheBlockInvariant`) and the
store keeps. -/
def Obligations.BusStoreThenLoadSeesTheBytes : Prop :=
  ∀ (d : Dram) (a n v : Nat), d.cells.wf → n ∈ [1, 2, 4, 8] → d.inBounds a n = true →
    ∃ d', d.busStore a (8 * n) v = .ok d' ∧ d'.base = d.base ∧ d'.size = d.size ∧ d'.cells.wf ∧
      d'.busLoad a (8 * n) = .ok (v % 2 ^ (8 * n)) ∧
      (∀ j m : Nat, m ∈ [1, 2, 4, 8] → j + m ≤ n →
        d'.busLoad (a + j) (8 * m) = .ok (v / 256 ^ (n - j - m) % 256 ^ m)) ∧
      (∀ x, x < a ∨ a + n ≤ x → d'.cells.read x = d.cells.read x)

/-- spec/20_memory.md R61, R62: an illegal width fails with InvalidWidth, an access that leaves DRAM with OutOfBounds,
computed without wrap (decision D24). A failing store gives no new contents. -/
def Obligations.BusRejectsWidthAndRange : Prop :=
  ∀ (d : Dram) (a v : Nat),
    (∀ bits, bits ≠ 8 → bits ≠ 16 → bits ≠ 32 → bits ≠ 64 →
      d.busLoad a bits = .error (.invalidWidth bits) ∧ d.busStore a bits v = .error (.invalidWidth bits)) ∧
    (∀ n, n ∈ [1, 2, 4, 8] → a < d.base.toNat ∨ a + n > d.base.toNat + d.size →
      d.busLoad a (8 * n) = .error (.outOfBounds a n) ∧ d.busStore a (8 * n) v = .error (.outOfBounds a n))

/-- The canonical form of memory is one form: two canonical contents that read the same at every address are equal. A
property of the model's representation (log 12). -/
def Obligations.CanonicalMemoriesThatReadAlikeAreEqual : Prop :=
  ∀ m m' : Memory, m.wf → m'.wf → (∀ a, m.read a = m'.read a) → m = m'

/-! ## Register 0 -/

/-- spec/10_state.md R31: register 0 reads as 0 in every state, whatever was written to it, and by every instruction: what
an instruction or a whole step does depends in no way on the word stored behind register 0, and leaves that word as it
is. (That there is a stored word at all, behind an accessor that answers 0, is the model's form: log 15.) -/
def Obligations.RegisterZeroReadsZero : Prop :=
  ∀ (s : State) (v : Word), s.getReg 0 = 0#32 ∧ (s.setReg 0 v).getReg 0 = 0#32 ∧ s.x 0 = 0#32 ∧
    (∀ (i : Instr) (t : State), exec i s = .next t →
      t.getReg 0 = 0#32 ∧ exec i (s.withStoredZero v) = .next (t.withStoredZero v)) ∧
    (∀ t : State, step s = .next t → t.getReg 0 = 0#32 ∧ step (s.withStoredZero v) = .next (t.withStoredZero v))

/-- spec/10_state.md R32: a write to register 0 has no effect on any state, by any of the instructions that write a
register; their faults are raised all the same, and the pc has been advanced by the step. It speaks of destination
register 0 alone: the other destinations are in each instruction's own statement. That the record's info is empty for
MalformedMovi is the model's reading, no word of R241 (log 8). -/
def Obligations.WriteToRegisterZeroIsDiscarded : Prop :=
  ∀ (s : State) (r a b : RegIdx),
    (∀ v, s.setReg 0 v = s) ∧
    exec (.mov 0 r) s = .next s ∧
    (∀ fn, fn ≠ 7#3 → exec (.edgeDetect 0 r fn) s = .next s) ∧
    exec (.edgeDetect 0 r 7#3) s
      = .next { s with status := faultedAt (s.pc - 2#32) .invalidEdgeFunc 0xA#4 .w2 (.func 7) } ∧
    exec (.and 0 a b) s = .next s ∧ exec (.or 0 a b) s = .next s ∧ exec (.xor 0 a b) s = .next s ∧
    exec (.redand 0 a b) s = .next s ∧ exec (.redor 0 a b) s = .next s ∧ exec (.redxor 0 a b) s = .next s ∧
    exec (.concat 0 a b) s = .next s ∧ exec (.isunk 0 a b) s = .next s ∧ exec (.add 0 a b) s = .next s ∧
    exec (.sub 0 a b) s = .next s ∧
    (∀ start stop, start.toNat ≤ stop.toNat → exec (.bitSlice 0 r start stop) s = .next s) ∧
    (∀ start stop, start.toNat > stop.toNat → exec (.bitSlice 0 r start stop) s
      = .next { s with status := faultedAt (s.pc - 4#32) .invalidBitRange 0xD#4 .w4 (.bitRange start stop) }) ∧
    (∀ k v, s.info.signal (k.setWidth 32) = some v → exec (.load 0 k) s = .next s) ∧
    (∀ k, s.info.signal (k.setWidth 32) = none → exec (.load 0 k) s
      = .next { s with status := faultedAt (s.pc - 4#32) .unknownSignal 0xE#4 .w4 (.signalKey (k.setWidth 32)) }) ∧
    (∀ imm, exec (.movi 0 0 imm) s = .next s) ∧
    (∀ imm, exec (.movi 1 0 imm) s
      = .next { s with status := faultedAt (s.pc - 8#32) .malformedMovi 0x5#4 .w8 .none })

/-! ## One-byte instructions -/

/-- spec/41_width1.md R150: any byte with a zero high nibble is TRIGGER; it emits one Trigger event and changes nothing
else. -/
def Obligations.TriggerOnlyEmits : Prop :=
  (∀ (b : Byte) (rest : List Byte), b.extractLsb' 4 4 = 0x0#4 → decode (b :: rest) = .instr .trigger) ∧
  ∀ s : State, exec .trigger s = .next { s with trace := s.trace ++ [.event .trigger] }

/-- spec/41_width1.md R151: RET sets the pc to LR and LR to 0; every other register and all else is unchanged. A RET
after a RET goes to pc 0. -/
def Obligations.RetReturnsAndClearsLr : Prop :=
  (∀ (b : Byte) (rest : List Byte), b.extractLsb' 4 4 = 0x1#4 → decode (b :: rest) = .instr .ret) ∧
  ∀ s : State, ∃ t, exec .ret s = .next t ∧ t.pc = s.getReg 16 ∧ t.getReg 16 = 0#32 ∧
    (∀ j : Fin 17, j ≠ 16 → t.getReg j = s.getReg j) ∧ t.trace = s.trace ∧ Kept s t ∧
    ∀ u, exec .ret t = .next u → u.pc = 0#32

/-- spec/41_width1.md R152: what each function of TIMER_SET writes on each timer, and that it writes nothing else: no
other timer register, no threshold and no target. Function 3 only warns. In the same cycle's tick an enabled timer whose
counter was just reset, and a timer just enabled at count 0, counts to 1 when its threshold is above 1. When it is at
most 1 the timer fires: its count is 0, its own entry is in the trace (TimerFired with its target, or TimerNoTarget where
it has none), and with a target the pc is that target, unless timer 1 redirects after timer 0; where the other timer is
disabled, nothing else changes. -/
def Obligations.TimerSetControlsOneTimer : Prop :=
  (∀ (b : Byte) (rest : List Byte), b.extractLsb' 4 4 = 0x2#4 →
    decode (b :: rest) = .instr (.timerSet (if b.getLsbD 3 then .t1 else .t0) (b.extractLsb' 1 2))) ∧
  ∀ s : State,
    exec (.timerSet .t0 0) s = .next { s with timer0 := { s.timer0 with count := 0#32 } } ∧
    exec (.timerSet .t1 0) s = .next { s with timer1 := { s.timer1 with count := 0#32 } } ∧
    exec (.timerSet .t0 1) s = .next { s with timer0 := { s.timer0 with enabled := false } } ∧
    exec (.timerSet .t1 1) s = .next { s with timer1 := { s.timer1 with enabled := false } } ∧
    exec (.timerSet .t0 2) s = .next { s with timer0 := { s.timer0 with enabled := true } } ∧
    exec (.timerSet .t1 2) s = .next { s with timer1 := { s.timer1 with enabled := true } } ∧
    (∀ t, exec (.timerSet t 3) s = .next { s with trace := s.trace ++ [.warning (.invalidTimerFunc t 3)] }) ∧
    (∀ (t : TimerId) (fn : BitVec 2) (u : State),
      fn = 0 ∧ (s.timer t).enabled = true ∨ fn = 2 ∧ (s.timer t).count = 0#32 →
      exec (.timerSet t fn) s = .next u →
      let r := s.timer t
      let entry : TraceItem :=
        if r.targetPc = 0#32 then .warning (.timerNoTarget t) else .event (.timerFired t r.targetPc)
      (r.threshold > 1#32 → ((timerTick u).timer t).count = 1#32) ∧
      (r.threshold ≤ 1#32 →
        ((timerTick u).timer t).count = 0#32 ∧
        (∃ before after, (timerTick u).trace = s.trace ++ before ++ entry :: after) ∧
        (r.targetPc ≠ 0#32 → t = .t1 ∨ ¬ s.timer1.redirects → (timerTick u).pc = r.targetPc) ∧
        (r.targetPc = 0#32 → (∀ k, k ≠ t → ¬ (s.timer k).redirects) → (timerTick u).pc = s.pc) ∧
        ((∀ k, k ≠ t → (s.timer k).enabled = false) →
          timerTick u = { s.setTimer t { r with enabled := true, count := 0#32 } with
            pc := if r.targetPc = 0#32 then s.pc else r.targetPc, trace := s.trace ++ [entry] })))

/-! ## Two-byte instructions -/

/-- spec/42_width2.md R173: TRIGGER_POS emits its 7-bit position and changes nothing else; the low five bits are
ignored. -/
def Obligations.TriggerPosOnlyEmits : Prop :=
  (∀ (b0 b1 : Byte) (rest : List Byte), b0.extractLsb' 4 4 = 0x3#4 →
    decode (b0 :: b1 :: rest) = .instr (.triggerPos ((b0 ++ b1).extractLsb' 5 7))) ∧
  ∀ (pos : BitVec 7) (s : State), exec (.triggerPos pos) s = .next { s with trace := s.trace ++ [.event (.triggerPos pos)] }

/-- spec/42_width2.md R174: JMP adds its signed 8-bit byte offset to the advanced pc, modulo 2^32, and changes nothing
else. -/
def Obligations.JmpAddsTheSignedOffset : Prop :=
  (∀ (b0 b1 : Byte) (rest : List Byte), b0.extractLsb' 4 4 = 0x4#4 →
    decode (b0 :: b1 :: rest) = .instr (.jmp ((b0 ++ b1).extractLsb' 4 8))) ∧
  ∀ (off8 : BitVec 8) (s : State),
    exec (.jmp off8) s = .next { s with pc := BitVec.ofInt 32 ((s.pc.toNat : Int) + off8.toInt) }

/-- spec/42_width2.md R175 and the discriminator of spec/30_encoding.md R83: a move-family word with bit 11 of its first
half set and six zero bytes behind is MOV; it copies x[rs] to x[rd], and a write to register 0 is a no-op. -/
def Obligations.MovCopiesTheRegister : Prop :=
  (∀ (b0 b1 : Byte) (rest : List Byte), b0.extractLsb' 4 4 = 0x5#4 → b0.getLsbD 3 = true →
    decode (b0 :: b1 :: 0 :: 0 :: 0 :: 0 :: 0 :: 0 :: rest)
      = .instr (.mov ((b0 ++ b1).extractLsb' 7 4) ((b0 ++ b1).extractLsb' 3 4))) ∧
  ∀ (rd rs : RegIdx) (s : State), ∃ t, exec (.mov rd rs) s = .next t ∧ WritesReg s t (fieldReg rd) (s.x rs)

/-- spec/42_width2.md R176: BL writes the advanced pc, the address of the next instruction, to LR and adds its signed
10-bit byte offset to the pc; every other register and all else is unchanged. -/
def Obligations.BlLinksAndBranches : Prop :=
  (∀ (b0 b1 : Byte) (rest : List Byte), b0.extractLsb' 4 4 = 0x6#4 →
    decode (b0 :: b1 :: rest) = .instr (.bl ((b0 ++ b1).extractLsb' 2 10))) ∧
  ∀ (off10 : BitVec 10) (s : State), ∃ t, exec (.bl off10) s = .next t ∧
    t.pc = BitVec.ofInt 32 ((s.pc.toNat : Int) + off10.toInt) ∧ t.getReg 16 = s.pc ∧
    (∀ j : Fin 17, j ≠ 16 → t.getReg j = s.getReg j) ∧ t.trace = s.trace ∧ Kept s t

/-- spec/42_width2.md R178: DOMAIN_SET writes the 8-bit domain on a hit and on a miss (decision D15); a hit emits Domain,
a miss logs UnknownDomain; nothing else changes. -/
def Obligations.DomainSetWritesOnHitAndMiss : Prop :=
  (∀ (b0 b1 : Byte) (rest : List Byte), b0.extractLsb' 4 4 = 0x7#4 →
    decode (b0 :: b1 :: rest) = .instr (.domainSet ((b0 ++ b1).extractLsb' 4 8))) ∧
  ∀ (dom : BitVec 8) (s : State),
    (dom ∈ s.info.domains →
      exec (.domainSet dom) s = .next { s with domain := dom, trace := s.trace ++ [.event (.domain dom)] }) ∧
    (dom ∉ s.info.domains →
      exec (.domainSet dom) s = .next { s with domain := dom, trace := s.trace ++ [.warning (.unknownDomain dom)] })

/-- spec/42_width2.md R179: DISPLAY emits Display on a hit, logs UnknownDisplay on a miss, and writes no architectural
state. -/
def Obligations.DisplayEmitsOrWarns : Prop :=
  (∀ (b0 b1 : Byte) (rest : List Byte), b0.extractLsb' 4 4 = 0x8#4 →
    decode (b0 :: b1 :: rest) = .instr (.display ((b0 ++ b1).extractLsb' 2 10))) ∧
  ∀ (id : BitVec 10) (s : State),
    (id ∈ s.info.displays → exec (.display id) s = .next { s with trace := s.trace ++ [.event (.display id)] }) ∧
    (id ∉ s.info.displays → exec (.display id) s = .next { s with trace := s.trace ++ [.warning (.unknownDisplay id)] })

/-- spec/42_width2.md R180: EXEC emits Exec on a hit and raises the fatal UnknownExecId on a miss, with the pc left
advanced; it writes no architectural state. -/
def Obligations.ExecEmitsOrFaults : Prop :=
  (∀ (b0 b1 : Byte) (rest : List Byte), b0.extractLsb' 4 4 = 0x9#4 →
    decode (b0 :: b1 :: rest) = .instr (.exec ((b0 ++ b1).extractLsb' 2 10))) ∧
  ∀ (id : BitVec 10) (s : State),
    (id ∈ s.info.execs → exec (.exec id) s = .next { s with trace := s.trace ++ [.event (.exec id)] }) ∧
    (id ∉ s.info.execs → exec (.exec id) s
      = .next { s with status := faultedAt (s.pc - 2#32) .unknownExecId 0x9#4 .w2 (.execId id) })

/-- spec/42_width2.md R181: EDGE_DETECT writes 1 or 0 by comparing bit 0 of the snapshot (`o`) with bit 0 of the register
now (`c`). The numbering of the functions is the spec's decision D12. -/
def Obligations.EdgeDetectWritesTheEdgeTest : Prop :=
  (∀ (b0 b1 : Byte) (rest : List Byte), b0.extractLsb' 4 4 = 0xA#4 →
    decode (b0 :: b1 :: rest)
      = .instr (.edgeDetect (b0.extractLsb' 0 4) (b1.extractLsb' 4 4) (b1.extractLsb' 1 3))) ∧
  ∀ (rd rs : RegIdx) (fn : BitVec 3) (s : State), fn ≠ 7#3 →
    let o := (s.prevAt rs).getLsbD 0
    let c := (s.x rs).getLsbD 0
    ∃ t b, exec (.edgeDetect rd rs fn) s = .next t ∧ WritesReg s t (fieldReg rd) (if b then 1#32 else 0#32) ∧
      (fn = 0 → (b = true ↔ o = false ∧ c = true)) ∧ (fn = 1 → (b = true ↔ o = true ∧ c = false)) ∧
      (fn = 2 → (b = true ↔ o ≠ c)) ∧ (fn = 3 → (b = true ↔ o = false ∧ c = false)) ∧
      (fn = 4 → (b = true ↔ o = true ∧ c = true)) ∧ (fn = 5 → (b = true ↔ o = c)) ∧ (fn = 6 → b = true)

/-- spec/42_width2.md R181: EDGE_DETECT function 7 raises the fatal InvalidEdgeFunc (decisions D12, D16) and changes
nothing but the status, whatever its registers. -/
def Obligations.EdgeDetectFunctionSevenFaults : Prop :=
  ∀ (rd rs : RegIdx) (s : State), exec (.edgeDetect rd rs 7) s
    = .next { s with status := faultedAt (s.pc - 2#32) .invalidEdgeFunc 0xA#4 .w2 (.func 7) }

/-! ## Four-byte instructions -/

/-- spec/43_width4.md R200, functions 0 to 7: JMPC jumps exactly when its condition holds, and changes nothing but the pc.
Operand order is the spec's decision D8. -/
def Obligations.JmpcJumpsWhenTheConditionHolds : Prop :=
  (∀ (b0 b1 b2 b3 : Byte) (rest : List Byte), b0.extractLsb' 4 4 = 0xB#4 →
    decode (b0 :: b1 :: b2 :: b3 :: rest)
      = .instr (.jmpc (b0.extractLsb' 0 4) (b1.extractLsb' 4 4) (b1.extractLsb' 0 4) b2)) ∧
  ∀ (fn : BitVec 4) (rs1 rs2 : RegIdx) (off8 : BitVec 8) (s : State), fn.toNat < 8 →
    let a := (s.x rs1).toNat
    let b := (s.x rs2).toNat
    let o := (s.prevAt rs1).getLsbD 0
    let c := (s.x rs1).getLsbD 0
    ∃ taken : Bool,
      (exec (.jmpc fn rs1 rs2 off8) s = .next { s with
        pc := if taken then BitVec.ofInt 32 ((s.pc.toNat : Int) + off8.toInt) else s.pc }) ∧
      (fn = 0 → (taken = true ↔ a = b)) ∧ (fn = 1 → (taken = true ↔ a ≠ b)) ∧ (fn = 2 → (taken = true ↔ a > b)) ∧
      (fn = 3 → (taken = true ↔ a < b)) ∧ (fn = 4 → (taken = true ↔ a ≥ b)) ∧ (fn = 5 → (taken = true ↔ a ≤ b)) ∧
      (fn = 6 → (taken = true ↔ o = false ∧ c = true)) ∧ (fn = 7 → (taken = true ↔ o = true ∧ c = false))

/-- spec/43_width4.md R200, functions 8 to 15: the fatal InvalidJmpcFunc (decisions D8, D16), nothing else changed. -/
def Obligations.JmpcInvalidFunctionFaults : Prop :=
  ∀ (fn : BitVec 4) (rs1 rs2 : RegIdx) (off8 : BitVec 8) (s : State), 8 ≤ fn.toNat →
    exec (.jmpc fn rs1 rs2 off8) s
      = .next { s with status := faultedAt (s.pc - 4#32) .invalidJmpcFunc 0xB#4 .w4 (.func fn.toNat) }

/-- spec/43_width4.md R202, R203, R204: AND, OR and XOR, bit by bit over 32 bits. -/
def Obligations.BitwiseFunctionsWriteTheirResult : Prop :=
  (∀ (b1 b2 b3 : Byte) (rest : List Byte),
    decode (0xC0 :: b1 :: b2 :: b3 :: rest) = .instr (.and (b1.extractLsb' 4 4) (b1.extractLsb' 0 4) (b2.extractLsb' 4 4)) ∧
    decode (0xC1 :: b1 :: b2 :: b3 :: rest) = .instr (.or (b1.extractLsb' 4 4) (b1.extractLsb' 0 4) (b2.extractLsb' 4 4)) ∧
    decode (0xC2 :: b1 :: b2 :: b3 :: rest) = .instr (.xor (b1.extractLsb' 4 4) (b1.extractLsb' 0 4) (b2.extractLsb' 4 4))) ∧
  ∀ (rd rs1 rs2 : RegIdx) (s : State),
    (∃ t v, exec (.and rd rs1 rs2) s = .next t ∧ WritesReg s t (fieldReg rd) v ∧
      ∀ k, v.getLsbD k = ((s.x rs1).getLsbD k && (s.x rs2).getLsbD k)) ∧
    (∃ t v, exec (.or rd rs1 rs2) s = .next t ∧ WritesReg s t (fieldReg rd) v ∧
      ∀ k, v.getLsbD k = ((s.x rs1).getLsbD k || (s.x rs2).getLsbD k)) ∧
    (∃ t v, exec (.xor rd rs1 rs2) s = .next t ∧ WritesReg s t (fieldReg rd) v ∧
      ∀ k, v.getLsbD k = ((s.x rs1).getLsbD k != (s.x rs2).getLsbD k))

/-- spec/43_width4.md R205, R206, R207: the reductions of all 32 bits of `rs1`; `rs2` is not used. -/
def Obligations.ReductionsWriteTheirResult : Prop :=
  (∀ (b1 b2 b3 : Byte) (rest : List Byte),
    decode (0xC3 :: b1 :: b2 :: b3 :: rest) = .instr (.redand (b1.extractLsb' 4 4) (b1.extractLsb' 0 4) (b2.extractLsb' 4 4)) ∧
    decode (0xC4 :: b1 :: b2 :: b3 :: rest) = .instr (.redor (b1.extractLsb' 4 4) (b1.extractLsb' 0 4) (b2.extractLsb' 4 4)) ∧
    decode (0xC5 :: b1 :: b2 :: b3 :: rest) = .instr (.redxor (b1.extractLsb' 4 4) (b1.extractLsb' 0 4) (b2.extractLsb' 4 4))) ∧
  ∀ (rd rs1 rs2 : RegIdx) (s : State),
    (∃ t v, exec (.redand rd rs1 rs2) s = .next t ∧ WritesReg s t (fieldReg rd) v ∧
      ((∀ k, k < 32 → (s.x rs1).getLsbD k = true) → v = 1#32) ∧
      ((∃ k, k < 32 ∧ (s.x rs1).getLsbD k = false) → v = 0#32)) ∧
    (∃ t v, exec (.redor rd rs1 rs2) s = .next t ∧ WritesReg s t (fieldReg rd) v ∧
      ((∃ k, k < 32 ∧ (s.x rs1).getLsbD k = true) → v = 1#32) ∧
      ((∀ k, k < 32 → (s.x rs1).getLsbD k = false) → v = 0#32)) ∧
    (∃ t v, exec (.redxor rd rs1 rs2) s = .next t ∧ WritesReg s t (fieldReg rd) v ∧
      v.toNat = ((Finset.range 32).filter (fun k => (s.x rs1).getLsbD k = true)).card % 2)

/-- spec/43_width4.md R208: CONCAT puts the low half of `rs1` above the low half of `rs2` (the reading of "src1-high" is
the spec's decision D11). -/
def Obligations.ConcatJoinsTheLowHalves : Prop :=
  (∀ (b1 b2 b3 : Byte) (rest : List Byte), decode (0xC6 :: b1 :: b2 :: b3 :: rest)
    = .instr (.concat (b1.extractLsb' 4 4) (b1.extractLsb' 0 4) (b2.extractLsb' 4 4))) ∧
  ∀ (rd rs1 rs2 : RegIdx) (s : State),
    ∃ t v, exec (.concat rd rs1 rs2) s = .next t ∧ WritesReg s t (fieldReg rd) v ∧
      v.toNat = (s.x rs1).toNat % 65536 * 65536 + (s.x rs2).toNat % 65536

/-- spec/43_width4.md R209: ISUNK writes 1, whatever its operands. -/
def Obligations.IsunkWritesOne : Prop :=
  (∀ (b1 b2 b3 : Byte) (rest : List Byte), decode (0xC7 :: b1 :: b2 :: b3 :: rest)
    = .instr (.isunk (b1.extractLsb' 4 4) (b1.extractLsb' 0 4) (b2.extractLsb' 4 4))) ∧
  ∀ (rd rs1 rs2 : RegIdx) (s : State), ∃ t, exec (.isunk rd rs1 rs2) s = .next t ∧ WritesReg s t (fieldReg rd) 1#32

/-- spec/43_width4.md R210, R211: ADD and SUB modulo 2^32, no flag and no fault (decisions D9, D10). -/
def Obligations.AddAndSubWrapModulo : Prop :=
  (∀ (b1 b2 b3 : Byte) (rest : List Byte),
    decode (0xC8 :: b1 :: b2 :: b3 :: rest) = .instr (.add (b1.extractLsb' 4 4) (b1.extractLsb' 0 4) (b2.extractLsb' 4 4)) ∧
    decode (0xC9 :: b1 :: b2 :: b3 :: rest) = .instr (.sub (b1.extractLsb' 4 4) (b1.extractLsb' 0 4) (b2.extractLsb' 4 4))) ∧
  ∀ (rd rs1 rs2 : RegIdx) (s : State),
    (∃ t v, exec (.add rd rs1 rs2) s = .next t ∧ WritesReg s t (fieldReg rd) v ∧
      (v.toNat : Int) = ((s.x rs1).toNat + (s.x rs2).toNat : Int) % 2 ^ 32) ∧
    (∃ t v, exec (.sub rd rs1 rs2) s = .next t ∧ WritesReg s t (fieldReg rd) v ∧
      (v.toNat : Int) = ((s.x rs1).toNat - (s.x rs2).toNat : Int) % 2 ^ 32)

/-- spec/43_width4.md R201: an ARITH_OP word with function 10 to 15 is fetched and raises the fatal InvalidArithFunc
(decision D16): the pc is advanced by 4, the record names the instruction's address, nothing else changes. The decoder
names it because it has no row in the opcode table (log 7). -/
def Obligations.ArithInvalidFunctionFaults : Prop :=
  ∀ s : State, s.status = .running → s.dram.legal = true → s.dram.inBounds s.pc.toNat 4 = true →
    (s.dram.cells.read s.pc.toNat).extractLsb' 4 4 = 0xC#4 →
    10 ≤ ((s.dram.cells.read s.pc.toNat).extractLsb' 0 4).toNat →
    step s = .next { s with
      pc := s.pc + 4#32
      status := faultedAt s.pc .invalidArithFunc 0xC#4 .w4
        (.func ((s.dram.cells.read s.pc.toNat).extractLsb' 0 4).toNat) }

/-- spec/43_width4.md R212: BIT_SLICE right-aligns the inclusive bit range and zero-fills above it; start > end raises the
fatal InvalidBitRange. -/
def Obligations.BitSliceExtractsOrFaults : Prop :=
  (∀ (b0 b1 b2 b3 : Byte) (rest : List Byte), b0.extractLsb' 4 4 = 0xD#4 →
    decode (b0 :: b1 :: b2 :: b3 :: rest)
      = .instr (.bitSlice (b0.extractLsb' 0 4) (b1.extractLsb' 4 4) ((b1 ++ b2).extractLsb' 7 5)
          (b2.extractLsb' 2 5))) ∧
  ∀ (rd rs : RegIdx) (start stop : BitVec 5) (s : State),
    (start.toNat ≤ stop.toNat → ∃ t v, exec (.bitSlice rd rs start stop) s = .next t ∧ WritesReg s t (fieldReg rd) v ∧
      ∀ k, v.getLsbD k = (decide (k ≤ stop.toNat - start.toNat) && (s.x rs).getLsbD (start.toNat + k))) ∧
    (start.toNat > stop.toNat → exec (.bitSlice rd rs start stop) s
      = .next { s with status := faultedAt (s.pc - 4#32) .invalidBitRange 0xD#4 .w4 (.bitRange start stop) })

/-- spec/43_width4.md R213: LOAD writes the signal table's value at the zero-extended key (decision D14), or raises the
fatal UnknownSignal, also for rd = 0. -/
def Obligations.LoadReadsTheSignalTable : Prop :=
  (∀ (b0 b1 b2 b3 : Byte) (rest : List Byte), b0.extractLsb' 4 4 = 0xE#4 →
    decode (b0 :: b1 :: b2 :: b3 :: rest) = .instr (.load (b0.extractLsb' 0 4) (b1 ++ b2 ++ b3))) ∧
  ∀ (rd : RegIdx) (k : BitVec 24) (s : State),
    (∀ v, s.info.signal (BitVec.ofNat 32 k.toNat) = some v →
      ∃ t, exec (.load rd k) s = .next t ∧ WritesReg s t (fieldReg rd) v) ∧
    (s.info.signal (BitVec.ofNat 32 k.toNat) = none → exec (.load rd k) s = .next { s with
      status := faultedAt (s.pc - 4#32) .unknownSignal 0xE#4 .w4 (.signalKey (BitVec.ofNat 32 k.toNat)) })

/-! ## Eight-byte instruction -/

/-- spec/44_width8.md R230: a move-family window that is no MOV is MOVI; with a zero reserved bit it writes the 32-bit
immediate, with a set one it raises the fatal MalformedMovi and writes no register. That the fault record's info is empty for
MalformedMovi is the model's reading (log 8). -/
def Obligations.MoviWritesTheImmediateOrFaults : Prop :=
  (∀ (b0 b1 b2 b3 b4 b5 b6 b7 : Byte) (rest : List Byte), b0.extractLsb' 4 4 = 0x5#4 →
    (b0.getLsbD 3 = false ∨ b2 ++ b3 ++ b4 ++ b5 ++ b6 ++ b7 ≠ 0#48) →
    decode (b0 :: b1 :: b2 :: b3 :: b4 :: b5 :: b6 :: b7 :: rest)
      = .instr (.movi (b0.extractLsb' 3 1) ((b0 ++ b1).extractLsb' 7 4)
          ((b1 ++ b2 ++ b3 ++ b4 ++ b5).extractLsb' 7 32))) ∧
  ∀ (rd : RegIdx) (imm : BitVec 32) (s : State),
    (∃ t, exec (.movi 0 rd imm) s = .next t ∧ WritesReg s t (fieldReg rd) imm) ∧
    exec (.movi 1 rd imm) s = .next { s with status := faultedAt (s.pc - 8#32) .malformedMovi 0x5#4 .w8 .none }

/-! ## Encoding -/

/-- spec/30_encoding.md R88 to R109: every well-formed instruction's bytes, with a MOV's six zero bytes behind it and
anything after that, decode to the instruction. -/
def Obligations.DecodeOfEncodeIsTheInstruction : Prop :=
  ∀ (i : Instr) (rest : List Byte), i.wellFormed = true → decode (encode i ++ lookAhead i ++ rest) = .instr i

/-- spec/30_encoding.md R109: the encoder writes the words of the encoding formulas. -/
def Obligations.EncoderWritesTheFormulas : Prop :=
  beValue (encode .trigger) = 0x00 ∧ beValue (encode .ret) = 0x10 ∧
  (∀ f, beValue (encode (.timerSet .t0 f)) = 0x20 + f.toNat * 2) ∧
  (∀ f, beValue (encode (.timerSet .t1 f)) = 0x20 + 8 + f.toNat * 2) ∧
  (∀ p, beValue (encode (.triggerPos p)) = 0x3000 + p.toNat * 2 ^ 5) ∧
  (∀ o, beValue (encode (.jmp o)) = 0x4000 + o.toNat * 2 ^ 4) ∧
  (∀ rd rs, beValue (encode (.mov rd rs)) = 0x5800 + rd.toNat * 2 ^ 7 + rs.toNat * 2 ^ 3) ∧
  (∀ o, beValue (encode (.bl o)) = 0x6000 + o.toNat * 2 ^ 2) ∧
  (∀ d, beValue (encode (.domainSet d)) = 0x7000 + d.toNat * 2 ^ 4) ∧
  (∀ id, beValue (encode (.display id)) = 0x8000 + id.toNat * 2 ^ 2) ∧
  (∀ id, beValue (encode (.exec id)) = 0x9000 + id.toNat * 2 ^ 2) ∧
  (∀ rd rs f, beValue (encode (.edgeDetect rd rs f)) = 0xA000 + rd.toNat * 2 ^ 8 + rs.toNat * 2 ^ 4 + f.toNat * 2) ∧
  (∀ f a b o, beValue (encode (.jmpc f a b o))
    = 0xB0000000 + f.toNat * 2 ^ 24 + a.toNat * 2 ^ 20 + b.toNat * 2 ^ 16 + o.toNat * 2 ^ 8) ∧
  (∀ (f : ArithFn) rd a b, beValue (encode (f.instr rd a b))
    = 0xC0000000 + arithNumber f * 2 ^ 24 + rd.toNat * 2 ^ 20 + a.toNat * 2 ^ 16 + b.toNat * 2 ^ 12) ∧
  (∀ rd rs a b, beValue (encode (.bitSlice rd rs a b))
    = 0xD0000000 + rd.toNat * 2 ^ 24 + rs.toNat * 2 ^ 20 + a.toNat * 2 ^ 15 + b.toNat * 2 ^ 10) ∧
  (∀ rd k, beValue (encode (.load rd k)) = 0xE0000000 + rd.toNat * 2 ^ 24 + k.toNat) ∧
  (∀ rd imm, beValue (encode (.movi 0 rd imm)) = 0x5000000000000000 + rd.toNat * 2 ^ 55 + imm.toNat * 2 ^ 23)

/-- A decoded instruction carries the opcode nibble of its first byte, and its bytes were there
(spec/30_encoding.md R80, R81, R87, spec/40_cycle.md R122); an unassigned nibble decodes to no instruction. -/
def Obligations.DecodedInstructionFitsItsBytes : Prop :=
  ∀ (bytes : List Byte) (i : Instr), decode bytes = .instr i →
    ∃ b0 rest, bytes = b0 :: rest ∧ i.op = b0.extractLsb' 4 4 ∧ i.op ≠ 0xF#4 ∧ i.width.bytes ≤ bytes.length ∧
      i.width = (if i.op.toNat < 3 then .w1 else if i.op.toNat = 5 then i.width
        else if i.op.toNat < 11 then .w2 else .w4) ∧
      (i.op = 5#4 → i.width = .w2 ∨ i.width = .w8)

/-- Sanity: words written out from the encodings of spec/30_encoding.md R90 to R103 and the vectors of
spec/95_test_vectors.md (K1, V1-5, V2-4, V2-8, V4-36, V4-51, V4-59, V4-68, V8-1). -/
def Obligations.SampleWordsDecode : Prop :=
  decode [0x00] = .instr .trigger ∧ decode [0x24] = .instr (.timerSet .t0 2) ∧
  decode [0x4F, 0xE0] = .instr (.jmp 0xFE) ∧
  decode [0x58, 0x90, 0, 0, 0, 0, 0, 0] = .instr (.mov 1 2) ∧
  decode [0xB1, 0x10, 0xF8, 0x00] = .instr (.jmpc 1 1 0 0xF8) ∧
  decode [0xC8, 0x31, 0x20, 0x00] = .instr (.add 3 1 2) ∧
  decode [0xD2, 0x12, 0x1C, 0x00] = .instr (.bitSlice 2 1 4 7) ∧
  decode [0xE1, 0x00, 0x01, 0x00] = .instr (.load 1 0x100) ∧
  decode [0x50, 0x80, 0x00, 0x00, 0x02, 0x80, 0x00, 0x00] = .instr (.movi 0 1 5)

/-! ## The timer unit -/

/-- spec/60_exceptions.md R255, R256, R258: one timer's tick. A disabled timer neither counts nor fires; below the
threshold an enabled one counts; at it the count is cleared, and either the pc goes to the target with TimerFired, or,
without a target, TimerNoTarget is logged and the pc is kept. The enable stays as it is (decision D19). -/
def Obligations.OneTimerTicksAsListed : Prop :=
  ∀ (t : TimerId) (s : State),
    ((s.timer t).enabled = false → tickTimer t s = s) ∧
    ((s.timer t).enabled = true → (s.timer t).count + 1#32 < (s.timer t).threshold →
      tickTimer t s = s.setTimer t { s.timer t with count := (s.timer t).count + 1#32 }) ∧
    ((s.timer t).enabled = true → (s.timer t).count + 1#32 ≥ (s.timer t).threshold → (s.timer t).targetPc ≠ 0#32 →
      tickTimer t s = { s.setTimer t { s.timer t with count := 0#32 } with
        pc := (s.timer t).targetPc, trace := s.trace ++ [.event (.timerFired t (s.timer t).targetPc)] }) ∧
    ((s.timer t).enabled = true → (s.timer t).count + 1#32 ≥ (s.timer t).threshold → (s.timer t).targetPc = 0#32 →
      tickTimer t s = { s.setTimer t { s.timer t with count := 0#32 } with
        trace := s.trace ++ [.warning (.timerNoTarget t)] })

/-- spec/60_exceptions.md R253: the tick writes only the two counts, the pc and the trace (no register, LR among
them, no snapshot entry, no byte of DRAM), and what it does depends on the timer registers alone. -/
def Obligations.TickTouchesOnlyTimersPcAndTrace : Prop :=
  (∀ s : State,
    (timerTick s).regs = s.regs ∧ (timerTick s).prev = s.prev ∧ (timerTick s).domain = s.domain ∧
    (timerTick s).counters = s.counters ∧ (timerTick s).status = s.status ∧ (timerTick s).info = s.info ∧
    (timerTick s).dram = s.dram ∧ (∀ a, (timerTick s).dram.cells.read a = s.dram.cells.read a) ∧
    (∀ t, ((timerTick s).timer t).enabled = (s.timer t).enabled ∧
      ((timerTick s).timer t).threshold = (s.timer t).threshold ∧
      ((timerTick s).timer t).targetPc = (s.timer t).targetPc)) ∧
  (∀ s s' : State, s.timer0 = s'.timer0 → s.timer1 = s'.timer1 →
    (timerTick s).timer0 = (timerTick s').timer0 ∧ (timerTick s).timer1 = (timerTick s').timer1 ∧
    (∃ items, (timerTick s).trace = s.trace ++ items ∧ (timerTick s').trace = s'.trace ++ items) ∧
    ((timerTick s).pc = s.pc ∧ (timerTick s').pc = s'.pc ∨ (timerTick s).pc = (timerTick s').pc))

/-- spec/60_exceptions.md R256: when both timers fire with targets in one tick, both events are emitted, timer 0's first,
both counts are 0 and timer 1's target is the pc. -/
def Obligations.TimerOneWinsWhenBothFire : Prop :=
  ∀ s : State, s.timer0.enabled = true → s.timer1.enabled = true →
    s.timer0.count + 1#32 ≥ s.timer0.threshold → s.timer1.count + 1#32 ≥ s.timer1.threshold →
    s.timer0.targetPc ≠ 0#32 → s.timer1.targetPc ≠ 0#32 →
    (timerTick s).pc = s.timer1.targetPc ∧ (timerTick s).timer0.count = 0#32 ∧ (timerTick s).timer1.count = 0#32 ∧
    (timerTick s).trace = s.trace ++ [.event (.timerFired .t0 s.timer0.targetPc), .event (.timerFired .t1 s.timer1.targetPc)]

/-- spec/60_exceptions.md R257: an enabled timer that starts from count 0 with threshold T counts modulo max(T, 1) and so
fires on every max(T, 1)-th tick: after `n` ticks the count is `n` mod max(T, 1), and the trace has gained
`n` / max(T, 1) entries of this timer. -/
def Obligations.EnabledTimerFiresPeriodically : Prop :=
  ∀ (t : TimerId) (s : State) (n : Nat), (s.timer t).enabled = true → (s.timer t).count = 0#32 →
    let period := max (s.timer t).threshold.toNat 1
    let mine : TraceItem → Bool := fun item =>
      item = .event (.timerFired t (s.timer t).targetPc) || item = .warning (.timerNoTarget t)
    ((timerTick^[n] s).timer t).count.toNat = n % period ∧
    ((timerTick^[n] s).timer t).enabled = true ∧
    (timerTick^[n] s).trace.countP mine = s.trace.countP mine + n / period

/-! ## The cycle -/

/-- spec/40_cycle.md R121, R125: when the DRAM bytes at the pc decode to `i`, a step advances the pc by the width of `i`
and dispatches `i`; if no fatal fault was raised, the snapshot takes x[0..15] as they were when the cycle began, the
timers tick, and a pc of 0 halts the run; a fatal fault ends the cycle at once. -/
def Obligations.StepRunsTheDecodedInstruction : Prop :=
  ∀ (s : State) (i : Instr), s.status = .running → s.dram.legal = true →
    decode (s.dram.bytesFrom s.pc.toNat 8) = .instr i →
    ∀ t, exec i { s with pc := s.pc + BitVec.ofNat 32 i.width.bytes } = .next t →
      (t.status = .running →
        let u := timerTick { t with prev := Vector.ofFn (fun k => s.getReg ⟨k.val, by omega⟩) }
        step s = .next (if u.pc = 0#32 then { u with status := .halted } else u)) ∧
      (t.status ≠ .running → step s = .next t)

/-- spec/40_cycle.md R123: the instruction that is decoded is the one the bus reads. For each legal width of `n` bytes that
lie in DRAM from the pc on, also in the last bytes of DRAM, the first `n` bytes given to the decoder are those of the
big-endian bus load of 8`n` bits at the pc; the decoder is never given more than eight. -/
def Obligations.FetchReadsTheBus : Prop :=
  ∀ s : State, (s.dram.bytesFrom s.pc.toNat 8).length ≤ 8 ∧
    ∀ n, n ∈ [1, 2, 4, 8] → s.dram.inBounds s.pc.toNat n = true →
      n ≤ (s.dram.bytesFrom s.pc.toNat 8).length ∧
      s.dram.busLoad s.pc.toNat (8 * n) = .ok (beValue ((s.dram.bytesFrom s.pc.toNat 8).take n)) ∧
      ∀ k, k < n → (s.dram.bytesFrom s.pc.toNat 8)[k]? = some (s.dram.cells.read (s.pc.toNat + k))

/-- spec/30_encoding.md R86: an unassigned nibble (0xF) raises the fatal UnknownOpcode and does not advance the pc; nothing
but the status changes. That the record's info is empty is the model's reading (log 8). -/
def Obligations.UnknownOpcodeDoesNotAdvance : Prop :=
  ∀ s : State, s.status = .running → s.dram.legal = true → s.dram.inBounds s.pc.toNat 1 = true →
    (s.dram.cells.read s.pc.toNat).extractLsb' 4 4 = 0xF#4 →
    step s = .next { s with status := .faulted ⟨.unknownOpcode, s.pc, some 0xF#4, none, .none⟩ }

/-- spec/30_encoding.md R85, spec/40_cycle.md R122: the four ways a fetch is out of range, each the fatal FetchOutOfRange
with the pc still at the instruction and nothing else changed. The window rule is the spec's decision D5. That the
record's info is empty is the model's reading (log 8). -/
def Obligations.FetchOutOfRangeFaults : Prop :=
  ∀ s : State, s.status = .running → s.dram.legal = true →
    let faulted (op : Option (BitVec 4)) (w : Option Width) : State :=
      { s with status := .faulted ⟨.fetchOutOfRange, s.pc, op, w, .none⟩ }
    let op := (s.dram.cells.read s.pc.toNat).extractLsb' 4 4
    (s.dram.inBounds s.pc.toNat 1 = false → step s = .next (faulted none none)) ∧
    (s.dram.inBounds s.pc.toNat 1 = true → op = 5#4 → s.dram.inBounds s.pc.toNat 8 = false →
      step s = .next (faulted (some op) none)) ∧
    (s.dram.inBounds s.pc.toNat 1 = true → (op = 3#4 ∨ op = 4#4 ∨ 6 ≤ op.toNat ∧ op.toNat ≤ 10) →
      s.dram.inBounds s.pc.toNat 2 = false → step s = .next (faulted (some op) (some .w2))) ∧
    (s.dram.inBounds s.pc.toNat 1 = true → (11 ≤ op.toNat ∧ op.toNat ≤ 14) → s.dram.inBounds s.pc.toNat 4 = false →
      step s = .next (faulted (some op) (some .w4)))

/-- spec/30_encoding.md R81, R83: with its bytes inside DRAM, each nibble is fetched with the width of the table: the
fetch answers an instruction of that nibble and width (for the move family, 2 exactly when bit 59 of the window is set
and its low 48 bits are zero, else 8), or, for ARITH_OP, the invalid function. -/
def Obligations.ClassifierGivesTheTableWidth : Prop :=
  ∀ s : State,
    let a := s.pc.toNat
    let op := (s.dram.cells.read a).extractLsb' 4 4
    (op.toNat ≤ 2 → s.dram.inBounds a 1 = true → ∃ i, fetch s = .instr i ∧ i.op = op ∧ i.width = .w1) ∧
    ((op = 3#4 ∨ op = 4#4 ∨ 6 ≤ op.toNat ∧ op.toNat ≤ 10) → s.dram.inBounds a 2 = true →
      ∃ i, fetch s = .instr i ∧ i.op = op ∧ i.width = .w2) ∧
    (11 ≤ op.toNat ∧ op.toNat ≤ 14 → s.dram.inBounds a 4 = true →
      (∃ i, fetch s = .instr i ∧ i.op = op ∧ i.width = .w4) ∨
      (op = 12#4 ∧ ∃ fn, fetch s = .invalidArithFunc fn ∧ 10 ≤ fn.toNat)) ∧
    (op = 5#4 → s.dram.inBounds a 8 = true →
      ∃ i, fetch s = .instr i ∧ i.op = op ∧
        (i.width = .w2 ∨ i.width = .w8) ∧
        (i.width = .w2 ↔
          (s.dram.cells.read a).getLsbD 3 = true ∧ ∀ k, 2 ≤ k → k < 8 → s.dram.cells.read (a + k) = 0#8))

/-- spec/40_cycle.md R131: a step that ends in Faulted writes no register, snapshot, timer, domain, counter, trace or
memory: only the pc and the status differ, so SNAPSHOT, TICK and CHECK did not run. -/
def Obligations.FatalFaultsChangeOnlyPcAndStatus : Prop :=
  ∀ (s t : State) (rec : FaultRecord), s.status = .running → step s = .next t → t.status = .faulted rec →
    t = { s with pc := t.pc, status := .faulted rec }

/-- spec/60_exceptions.md R240, R241: the record of a fault names the address the instruction was fetched from, and the
pc stands at it after a fetch fault and behind the instruction after an execute fault, by the instruction's width (the
spec's decision D17). -/
def Obligations.FaultRecordNamesTheInstruction : Prop :=
  ∀ (s t : State) (rec : FaultRecord), s.status = .running → step s = .next t → t.status = .faulted rec →
    rec.faultPc = s.pc ∧ t.pc = s.pc + BitVec.ofNat 32 rec.code.pcAdvance ∧
    (rec.code.atFetch = false → ∃ w, rec.width = some w ∧ w.bytes = rec.code.pcAdvance) ∧
    (rec.code.atFetch = true → t.pc = s.pc) ∧
    (rec.op = none ↔ s.dram.inBounds s.pc.toNat 1 = false) ∧
    (∀ op, rec.op = some op → op = (s.dram.cells.read s.pc.toNat).extractLsb' 4 4)

/-- spec/40_cycle.md R128, spec/70_reset_and_hazards.md R288: after a cycle without a fatal fault the snapshot holds the
registers as they were when that cycle began, so an edge test of the next cycle compares exactly those two instants.
(That an instruction that only warned also updates it is the spec's decision D26.) -/
def Obligations.SnapshotHoldsTheRegistersBefore : Prop :=
  ∀ s t : State, s.status = .running → step s = .next t → (∀ rec, t.status ≠ .faulted rec) →
    ∀ r : RegIdx, t.prevAt r = s.x r ∧
      ((t.x r).getLsbD 0 = (s.x r).getLsbD 0 → ∀ f, f ∈ [EdgeFn.rising, .falling, .anyTransition] →
        edgeHolds f (t.oldBit r) (t.curBit r) = false)

/-- spec/40_cycle.md R132: a step that leaves no fault ends Halted exactly when the pc is 0 after the tick, and Running
otherwise (decision D20). -/
def Obligations.RunHaltsExactlyAtPcZero : Prop :=
  ∀ s t : State, s.status = .running → step s = .next t → (∀ rec, t.status ≠ .faulted rec) →
    (t.status = .halted ↔ t.pc = 0#32) ∧ (t.status = .running ↔ t.pc ≠ 0#32)

/-- spec/40_cycle.md R132, R133, spec/60_exceptions.md R256, spec/70_reset_and_hazards.md R294: a RET with LR = 0 halts
the run with pc 0 when no timer fires with a target in the same cycle: each timer is disabled, or does not reach its
threshold, or has no target. When timer 1 fires with a target, or timer 0 alone does, the halt is cancelled and the run
goes on at that target. -/
def Obligations.RetWithZeroLinkHaltsUnlessATimerFires : Prop :=
  ∀ s : State, s.status = .running → s.dram.legal = true → s.dram.inBounds s.pc.toNat 1 = true →
    (s.dram.cells.read s.pc.toNat).extractLsb' 4 4 = 1#4 → s.getReg 16 = 0#32 →
    ((∀ k, (s.timer k).enabled = false ∨ (s.timer k).count + 1#32 < (s.timer k).threshold ∨
        (s.timer k).targetPc = 0#32) →
      ∃ t, step s = .next t ∧ t.status = .halted ∧ t.pc = 0#32) ∧
    (s.timer1.redirects → ∃ t, step s = .next t ∧ t.status = .running ∧ t.pc = s.timer1.targetPc) ∧
    (s.timer0.redirects → ¬ s.timer1.redirects →
      ∃ t, step s = .next t ∧ t.status = .running ∧ t.pc = s.timer0.targetPc)

/-- Halted and Faulted are final (spec/10_state.md R46): a step of an ended run leaves the whole state as it is. That a
step is an answer at all there is the model's reading (log 4). -/
def Obligations.EndedRunsStayAsTheyAre : Prop :=
  ∀ s : State, s.status ≠ .running → step s = .next s

/-- Every step of a running state with a legal geometry answers a next state, whatever DRAM, INFO and registers hold; with
an illegal geometry it is refused (spec/93_implementation_defined.md I17; logs 5 and 13). -/
def Obligations.EveryStepAnswersANextState : Prop :=
  ∀ s : State, (s.dram.legal = true → ∃ t, step s = .next t) ∧
    (s.dram.legal = false → s.status = .running → step s = .refused .illegalLaunch)

/-! ## Whole-machine rules -/

/-- The invariant of Safety.lean holds after every launch with legal inputs. -/
def Obligations.LaunchEstablishesTheInvariant : Prop :=
  State.reset.Inv ∧
  ∀ (p : Launch) (image : List Byte), 1 ≤ p.memSize → p.memBase.toNat + p.memSize ≤ 2 ^ 32 → (State.boot p image).Inv

/-- Every step keeps the invariant of Safety.lean: canonical DRAM contents inside DRAM, a legal geometry, snapshot entry 0
and the reserved counters at 0, no timer count at or past a nonzero threshold, Halted only at pc 0, Faulted only at the pc
of the fault table (spec/10_state.md R39, R41, spec/40_cycle.md R132, spec/60_exceptions.md R240, R257). -/
def Obligations.EveryStepKeepsTheBlockInvariant : Prop :=
  ∀ s t : State, s.Inv → step s = .next t → t.Inv

/-- No step writes a launch input or reserved state: DRAM (contents, base, size), INFO, the timer thresholds and targets,
and the two counters (spec/10_state.md R41, R44, R45, R51, spec/20_memory.md R66, R74). -/
def Obligations.NoStepWritesLaunchInputsOrCounters : Prop :=
  ∀ s t : State, step s = .next t →
    t.dram = s.dram ∧ (∀ a, t.dram.cells.read a = s.dram.cells.read a) ∧ t.info = s.info ∧ t.counters = s.counters ∧
    (∀ k, (t.timer k).threshold = (s.timer k).threshold ∧ (t.timer k).targetPc = (s.timer k).targetPc)

/-- Which instructions may change what, over all instructions: LR only BL and RET (spec/10_state.md R34); `domain` only
DOMAIN_SET (R40); a timer's enable only TIMER_SET on that timer (R43); a general register only the destination register
of an instruction that has one (R33, spec/40_cycle.md R126). -/
def Obligations.EachStateHasOnlyItsOwnWriters : Prop :=
  ∀ (i : Instr) (s t : State), exec i s = .next t →
    (t.getReg 16 ≠ s.getReg 16 → i = .ret ∨ ∃ o, i = .bl o) ∧
    (t.domain ≠ s.domain → ∃ d, i = .domainSet d) ∧
    (∀ k, (t.timer k).enabled ≠ (s.timer k).enabled → ∃ fn, i = .timerSet k fn) ∧
    (∀ r : RegIdx, t.x r ≠ s.x r → r ≠ 0 ∧
      ((∃ rs, i = .mov r rs) ∨ (∃ rs fn, i = .edgeDetect r rs fn) ∨ (∃ f a b, i = ArithFn.instr f r a b) ∨
        (∃ rs a b, i = .bitSlice r rs a b) ∨ (∃ k, i = .load r k) ∨ (∃ imm, i = .movi 0 r imm)))

/-- Which instructions raise a fatal fault in the execute stage, over all instructions: the illegal encodings of
spec/30_encoding.md R106, an EXEC whose id has no entry, and a LOAD whose key has no value (spec/60_exceptions.md R240,
codes 3 to 9, InvalidArithFunc apart). Every other instruction leaves a running state running. -/
def Obligations.ExecuteFaultsOnlyOnIllegalEncodingsAndMisses : Prop :=
  ∀ (i : Instr) (s : State), s.status = .running →
    ∃ t, exec i s = .next t ∧
      (t.status = .running ↔ i.legal = true ∧ (∀ id, i = .exec id → id ∈ s.info.execs) ∧
        (∀ rd k, i = .load rd k → s.info.signal (BitVec.ofNat 32 k.toNat) ≠ none)) ∧
      (t.status ≠ .running → ∃ rec, t.status = .faulted rec)

/-- The trace output only grows, and by no more than three entries a step: one from the instruction, one from each timer
(spec/60_exceptions.md R243). -/
def Obligations.TraceGrowsByAtMostThree : Prop :=
  ∀ s t : State, step s = .next t → ∃ items, t.trace = s.trace ++ items ∧ items.length ≤ 3

/-- Nothing reads `domain`, `counters` or the trace (spec/10_state.md R40, R41, spec/00_scope.md R17): two states that
differ only in them step to states that differ only in them. -/
def Obligations.OutputsAreNeverRead : Prop :=
  ∀ s s' t : State, s.withoutOutputs = s'.withoutOutputs → step s = .next t →
    ∃ t', step s' = .next t' ∧ t.withoutOutputs = t'.withoutOutputs

/-- A step reads DRAM only in its fetch window: the eight bytes from the pc on (spec/10_state.md R49,
spec/30_encoding.md R83). Two DRAM contents that agree there give the same step, contents apart. -/
def Obligations.StepReadsOnlyTheFetchWindow : Prop :=
  ∀ (s t : State) (m : Memory), (∀ k, k < 8 → m.read (s.pc.toNat + k) = s.dram.cells.read (s.pc.toNat + k)) →
    step s = .next t →
    step { s with dram := { s.dram with cells := m } } = .next { t with dram := { t.dram with cells := m } }

/-- An instruction placed with `withFetchWord` is the one the next step runs (log 9): the bytes at the pc decode to what
`decodeTableWord` answers, whenever the contents of DRAM have their canonical form (log 12) and eight bytes from the pc on
lie in DRAM. -/
def Obligations.PlacedWordIsFetched : Prop :=
  ∀ (s : State) (nbits w : Nat) (i : Instr), s.dram.cells.wf → s.dram.inBounds s.pc.toNat 8 = true → decodeTableWord nbits w = some i →
    fetch (s.withFetchWord nbits w) = .instr i ∧ (s.withFetchWord nbits w).status = .running ∧
    (s.withFetchWord nbits w).pc = s.pc
end

