-- ==== Sys2Proof/Laws/Memory.lean ====
section
/-! SUPPORT. Reading and writing memory: read after write, the canonical form is kept, runs of bytes, and the bounds of
the fetch port. -/

namespace Sys2Proof.Machine

/-! ### The canonical form -/

theorem Memory.wf_nil : Memory.wf [] := by simp [Memory.wf]

theorem Memory.wf_cons {c : Host.Cell} {m : Memory} :
    Memory.wf (c :: m) ↔ (∀ d ∈ m, c.1 < d.1) ∧ c.2 ≠ Config.initFill ∧ Memory.wf m := by
  simp only [Memory.wf, List.pairwise_cons, List.mem_cons, forall_eq_or_imp]
  tauto

/-- Below every listed address memory reads as the fill. -/
theorem Memory.read_below {m : Memory} {a : Nat} (h : ∀ c ∈ m, a < c.1) : m.read a = Config.initFill := by
  induction m with
  | nil => rfl
  | cons c m ih =>
    obtain ⟨a', b⟩ := c
    have h1 : a < a' := h (a', b) (by simp)
    simp only [Memory.read, if_neg (Nat.ne_of_lt h1)]
    exact ih (fun d hd => h d (by simp [hd]))

/-- Read after write. -/
theorem Memory.read_write {m : Memory} (hm : m.wf) (a x : Nat) (b : Byte) :
    (m.write a b).read x = if x = a then b else m.read x := by
  induction m with
  | nil =>
    by_cases hb : b = Config.initFill <;> by_cases hx : x = a <;> simp [Memory.write, Memory.read, hb, hx]
  | cons c m ih =>
    obtain ⟨a', b'⟩ := c
    obtain ⟨hlt, hne, hwf⟩ := Memory.wf_cons.mp hm
    simp only [Memory.write]
    split
    · rename_i h
      have hbelow : Memory.read ((a', b') :: m) a = Config.initFill := Memory.read_below (by
        intro d hd
        rcases List.mem_cons.mp hd with rfl | hd
        · exact h
        · exact lt_trans h (hlt d hd))
      split
      · rename_i hb
        by_cases hx : x = a
        · subst hx; rw [hbelow, hb, if_pos rfl]
        · rw [if_neg hx]
      · by_cases hx : x = a
        · subst hx; simp [Memory.read]
        · rw [if_neg hx, Memory.read, if_neg hx]
    · rename_i h
      split
      · rename_i haa
        subst haa
        split
        · rename_i hb
          by_cases hx : x = a
          · subst hx; rw [if_pos rfl, hb]; exact Memory.read_below hlt
          · simp [Memory.read, hx]
        · by_cases hx : x = a <;> simp [Memory.read, hx]
      · rename_i hne'
        simp only [Memory.read]
        by_cases hx : x = a'
        · subst hx; rw [if_pos rfl, if_pos rfl, if_neg (fun h' => hne' h'.symm)]
        · rw [if_neg hx, if_neg hx]; exact ih hwf

/-- The addresses that a write lists are the written one and the ones listed before. -/
theorem Memory.mem_write {m : Memory} {a : Nat} {b : Byte} {c : Host.Cell} (h : c ∈ m.write a b) :
    c.1 = a ∨ c ∈ m := by
  induction m with
  | nil => by_cases hb : b = Config.initFill <;> simp [Memory.write, hb] at h; simp [h]
  | cons d m ih =>
    obtain ⟨a', b'⟩ := d
    simp only [Memory.write] at h
    split at h
    · split at h
      · exact .inr h
      · rcases List.mem_cons.mp h with rfl | h
        · exact .inl rfl
        · exact .inr h
    · split at h
      · split at h
        · exact .inr (List.mem_cons_of_mem _ h)
        · rcases List.mem_cons.mp h with rfl | h
          · exact .inl rfl
          · exact .inr (List.mem_cons_of_mem _ h)
      · rcases List.mem_cons.mp h with rfl | h
        · exact .inr (by simp)
        · exact (ih h).imp id (List.mem_cons_of_mem _)

/-- A write keeps the canonical form. -/
theorem Memory.wf_write {m : Memory} (hm : m.wf) (a : Nat) (b : Byte) : (m.write a b).wf := by
  induction m with
  | nil => by_cases hb : b = Config.initFill <;> simp [Memory.write, Memory.wf, hb]
  | cons d m ih =>
    obtain ⟨a', b'⟩ := d
    obtain ⟨hlt, hne, hwf⟩ := Memory.wf_cons.mp hm
    simp only [Memory.write]
    split
    · rename_i h
      split
      · exact hm
      · rename_i hb
        refine Memory.wf_cons.mpr ⟨?_, hb, hm⟩
        intro d hd
        rcases List.mem_cons.mp hd with rfl | hd
        · exact h
        · exact lt_trans h (hlt d hd)
    · rename_i h
      split
      · rename_i haa
        subst haa
        split
        · exact hwf
        · rename_i hb
          exact Memory.wf_cons.mpr ⟨hlt, hb, hwf⟩
      · rename_i hne'
        refine Memory.wf_cons.mpr ⟨?_, hne, ih hwf⟩
        intro d hd
        rcases Memory.mem_write hd with h' | h'
        · have hle : a' ≤ a := Nat.le_of_not_lt h
          have hnaa : a' ≠ a := fun h'' => hne' h''.symm
          simp only [h']
          omega
        · exact hlt d h'

/-! ### Runs of bytes -/

theorem Memory.wf_writeBytes {m : Memory} (hm : m.wf) (a : Nat) (bytes : List Byte) : (m.writeBytes a bytes).wf := by
  induction bytes generalizing m a with
  | nil => exact hm
  | cons b rest ih => exact ih (Memory.wf_write hm a b) (a + 1)

theorem Memory.read_writeBytes {m : Memory} (hm : m.wf) (a x : Nat) (bytes : List Byte) :
    (m.writeBytes a bytes).read x
      = if a ≤ x ∧ x < a + bytes.length then bytes.getD (x - a) Config.initFill else m.read x := by
  induction bytes generalizing m a with
  | nil => simp [Memory.writeBytes]
  | cons b rest ih =>
    simp only [Memory.writeBytes, List.length_cons]
    rw [ih (Memory.wf_write hm a b) (a + 1), Memory.read_write hm]
    by_cases hxa : x = a
    · subst hxa; simp
    · by_cases h : a + 1 ≤ x ∧ x < a + 1 + rest.length
      · have h' : a ≤ x ∧ x < a + (rest.length + 1) := by omega
        have : x - a = (x - (a + 1)) + 1 := by omega
        rw [if_pos h, if_pos h', this, List.getD_cons_succ]
      · have h' : ¬(a ≤ x ∧ x < a + (rest.length + 1)) := by omega
        rw [if_neg h, if_neg h', if_neg hxa]

theorem Memory.mem_writeBytes {m : Memory} {a : Nat} {bytes : List Byte} {c : Host.Cell}
    (h : c ∈ m.writeBytes a bytes) : (a ≤ c.1 ∧ c.1 < a + bytes.length) ∨ c ∈ m := by
  induction bytes generalizing m a with
  | nil => exact .inr h
  | cons b rest ih =>
    rcases ih h with h | h
    · exact .inl (by simp only [List.length_cons]; omega)
    · rcases Memory.mem_write h with h | h
      · exact .inl (by simp only [List.length_cons]; omega)
      · exact .inr h

/-- The contents of an image are canonical. -/
theorem Memory.wf_ofImage (base : Word) (size : Nat) (image : List Byte) : (Memory.ofImage base size image).wf :=
  Memory.wf_writeBytes Memory.wf_nil _ _

/-- The contents of an image lie in DRAM. -/
theorem Memory.ofImage_inside {base : Word} {size : Nat} {image : List Byte} {c : Host.Cell}
    (h : c ∈ Memory.ofImage base size image) : base.toNat ≤ c.1 ∧ c.1 < base.toNat + size := by
  rcases Memory.mem_writeBytes h with h | h
  · simp only [List.length_take] at h; omega
  · simp at h

@[simp] theorem Memory.length_readBytes (m : Memory) (a n : Nat) : (m.readBytes a n).length = n := by
  induction n generalizing a with
  | zero => rfl
  | succ k ih => simp [Memory.readBytes, ih]

theorem Memory.getElem?_readBytes (m : Memory) (a n k : Nat) :
    (m.readBytes a n)[k]? = if k < n then some (m.read (a + k)) else none := by
  induction n generalizing a k with
  | zero => simp [Memory.readBytes]
  | succ n ih =>
    cases k with
    | zero => simp [Memory.readBytes]
    | succ k =>
      simp only [Memory.readBytes, List.getElem?_cons_succ, ih, Nat.add_lt_add_iff_right]
      rw [Nat.add_right_comm, Nat.add_assoc]

/-- Two contents that agree on a run of addresses read the same bytes there. -/
theorem Memory.readBytes_congr {m m' : Memory} {a n : Nat} (h : ∀ k, k < n → m.read (a + k) = m'.read (a + k)) :
    m.readBytes a n = m'.readBytes a n := by
  apply List.ext_getElem?
  intro k
  rw [Memory.getElem?_readBytes, Memory.getElem?_readBytes]
  by_cases hk : k < n
  · simp [hk, h k hk]
  · simp [hk]

/-! ### Bounds -/

theorem Dram.inBounds_iff (d : Dram) (a n : Nat) :
    d.inBounds a n = true ↔ d.base.toNat ≤ a ∧ a + n ≤ d.base.toNat + d.size := by
  simp [Dram.inBounds]

@[simp] theorem Dram.length_bytesFrom (d : Dram) (a n : Nat) : (d.bytesFrom a n).length = d.available a n := by
  simp [Dram.bytesFrom]

theorem Dram.available_le (d : Dram) (a n : Nat) : d.available a n ≤ n := by
  unfold Dram.available; split <;> omega

/-- The fetch port gives at least `k` bytes exactly when `k` bytes lie in DRAM. -/
theorem Dram.le_available_iff (d : Dram) {a n k : Nat} (h1 : 1 ≤ k) (hk : k ≤ n) :
    k ≤ d.available a n ↔ d.inBounds a k = true := by
  rw [Dram.inBounds_iff]
  unfold Dram.available
  split <;> omega

/-- The bytes of the fetch port, one by one. -/
theorem Dram.getElem?_bytesFrom (d : Dram) (a n k : Nat) :
    (d.bytesFrom a n)[k]? = if k < d.available a n then some (d.cells.read (a + k)) else none :=
  Memory.getElem?_readBytes _ _ _ _

/-- When all `n` bytes lie in DRAM the fetch port gives them all. -/
theorem Dram.bytesFrom_of_inBounds {d : Dram} {a n : Nat} (h : d.inBounds a n = true) :
    d.bytesFrom a n = d.cells.readBytes a n := by
  have : d.available a n = n := by
    rw [Dram.inBounds_iff] at h
    unfold Dram.available
    split <;> omega
  rw [Dram.bytesFrom, this]

end Sys2Proof.Machine
end

