-- ==== Sys2Proof/Laws/Bus.lean ====
section
/-! SUPPORT. The bus: big-endian values and their bytes, and that every operation over DRAM keeps the canonical form. -/

namespace Sys2Proof.Machine

/-! ### Big-endian values -/

theorem beValue_foldl (bytes : List Byte) (acc : Nat) :
    bytes.foldl (fun acc b => acc * 256 + b.toNat) acc = acc * 256 ^ bytes.length + beValue bytes := by
  induction bytes generalizing acc with
  | nil => simp [beValue]
  | cons b bytes ih =>
    simp only [beValue, List.foldl_cons, List.length_cons]
    rw [ih, ih (0 * 256 + b.toNat)]
    ring

theorem beValue_cons (b : Byte) (bytes : List Byte) :
    beValue (b :: bytes) = b.toNat * 256 ^ bytes.length + beValue bytes := by
  rw [beValue, List.foldl_cons, beValue_foldl]
  simp

@[simp] theorem length_beBytes (n v : Nat) : (beBytes n v).length = n := by
  induction n with
  | zero => rfl
  | succ n ih => simp [beBytes, ih]

theorem getD_beBytes (n v j : Nat) (d : Byte) (h : j < n) :
    (beBytes n v).getD j d = BitVec.ofNat 8 (v / 256 ^ (n - 1 - j)) := by
  induction n generalizing j with
  | zero => omega
  | succ n ih =>
    cases j with
    | zero => simp [beBytes]
    | succ j =>
      rw [beBytes, List.getD_cons_succ, ih j (by omega)]
      congr 3
      omega

theorem beValue_beBytes (n v : Nat) : beValue (beBytes n v) = v % 256 ^ n := by
  induction n with
  | zero => simp [beBytes, beValue, Nat.mod_one]
  | succ n ih =>
    rw [beBytes, beValue_cons, ih, length_beBytes, BitVec.toNat_ofNat, Nat.pow_succ 256 n, Nat.mod_mul, Nat.mul_comm,
      Nat.add_comm]

theorem beValue_bytes2 (v : BitVec 16) : beValue (bytes2 v) = v.toNat := by
  have := v.isLt
  simp [beValue, bytes2, BitVec.extractLsb'_toNat, Nat.shiftRight_eq_div_pow]
  omega

theorem beValue_bytes4 (v : BitVec 32) : beValue (bytes4 v) = v.toNat := by
  have := v.isLt
  simp [beValue, bytes4, BitVec.extractLsb'_toNat, Nat.shiftRight_eq_div_pow]
  omega

theorem beValue_bytes8 (v : BitVec 64) : beValue (bytes8 v) = v.toNat := by
  have := v.isLt
  simp [beValue, bytes8, BitVec.extractLsb'_toNat, Nat.shiftRight_eq_div_pow]
  omega

/-! ### Widths and runs of bytes -/

theorem busBytes?_mul {n : Nat} (hn : n ∈ [1, 2, 4, 8]) : busBytes? (8 * n) = some n := by
  fin_cases hn <;> rfl

/-- A run of bytes is what it reads as, byte by byte. -/
theorem Memory.readBytes_eq {m : Memory} {a n : Nat} {bytes : List Byte} (hl : bytes.length = n)
    (h : ∀ k, k < n → m.read (a + k) = bytes.getD k Config.initFill) : m.readBytes a n = bytes := by
  apply List.ext_getElem?
  intro k
  rw [Memory.getElem?_readBytes]
  by_cases hk : k < n
  · rw [if_pos hk, h k hk, List.getD_eq_getElem?_getD, List.getElem?_eq_getElem (show k < bytes.length by omega)]
    rfl
  · rw [if_neg hk, List.getElem?_eq_none (by omega)]

/-- The bytes just written. -/
theorem Memory.readBytes_writeBytes {m : Memory} (hm : m.wf) (a : Nat) (bytes : List Byte) :
    (m.writeBytes a bytes).readBytes a bytes.length = bytes := by
  refine Memory.readBytes_eq rfl fun k hk => ?_
  rw [Memory.read_writeBytes hm, if_pos (by omega), Nat.add_sub_cancel_left]

/-! ### The canonical form is kept by every operation over DRAM -/

theorem Dram.wf_busStore {d d' : Dram} {a bits v : Nat} (hm : d.cells.wf) (h : d.busStore a bits v = .ok d') :
    d'.cells.wf := by
  unfold Dram.busStore at h
  split at h
  · cases h
  · split at h
    · injection h with h
      subst h
      exact Memory.wf_writeBytes hm _ _
    · cases h

theorem wf_placeAtPc {s : State} (hm : s.dram.cells.wf) (bytes : List Byte) : (placeAtPc s bytes).dram.cells.wf :=
  Memory.wf_writeBytes hm _ _

theorem wf_reset : State.reset.dram.cells.wf := Memory.wf_nil

theorem wf_boot (p : Launch) (image : List Byte) : (State.boot p image).dram.cells.wf := Memory.wf_ofImage _ _ _

/-! ### The fetch port at the pc -/

/-- With the byte at the pc in DRAM, the decoder gets that byte and what follows it. -/
theorem fetch_eq_cons {s : State} (h : s.dram.inBounds s.pc.toNat 1 = true) :
    fetch s = decode (s.dram.cells.read s.pc.toNat ::
      s.dram.cells.readBytes (s.pc.toNat + 1) (s.dram.available s.pc.toNat 8 - 1)) := by
  have h1 : 1 ≤ s.dram.available s.pc.toNat 8 := (Dram.le_available_iff _ (by omega) (by omega)).mpr h
  obtain ⟨m, hm⟩ : ∃ m, s.dram.available s.pc.toNat 8 = m + 1 := ⟨_, (Nat.sub_add_cancel h1).symm⟩
  rw [fetch, Dram.bytesFrom, hm]
  rfl

/-- With the byte at the pc outside DRAM, it gets nothing. -/
theorem fetch_eq_nil {s : State} (h : s.dram.inBounds s.pc.toNat 1 = false) : fetch s = .reject .noByte := by
  have h0 : s.dram.available s.pc.toNat 8 = 0 := by
    by_contra hc
    rw [(Dram.le_available_iff s.dram (by omega) (by omega)).mp (Nat.one_le_iff_ne_zero.mpr hc)] at h
    cases h
  rw [fetch, Dram.bytesFrom, h0]
  rfl

theorem Dram.available_lt {d : Dram} {a n k : Nat} (h1 : 1 ≤ k) (hn : k ≤ n) (h : d.inBounds a k = false) :
    d.available a n < k := by
  by_contra hc
  rw [(Dram.le_available_iff d h1 hn).mp (by omega)] at h
  cases h

end Sys2Proof.Machine
end

