-- ==== Sys2Proof/Laws/Decode.lean ====
section
/-! SUPPORT. The decoder by classes of first bytes, the tables read both ways, fields of an assembled word, and the bytes
of a word put together again. -/

namespace Sys2Proof

/-! ### The tables read both ways -/

theorem opClass?_opNibble (c : OpClass) : opClass? (opNibble c) = some c := by
  rcases c with o | o | o | _ <;> (try cases o) <;> rfl

theorem opNibble_of_opClass? {op : BitVec 4} {c : OpClass} (h : opClass? op = some c) : opNibble c = op := by
  revert op
  rcases c with o | o | o | _ <;> (try cases o) <;> decide

theorem opClass?_eq_none_iff (op : BitVec 4) : opClass? op = none ↔ op = 0xF#4 := by
  revert op; decide

theorem arithFn?_arithSelector (f : ArithFn) : arithFn? (arithSelector f) = some f := by cases f <;> rfl

theorem arithFn?_eq_none_iff (fn : BitVec 4) : arithFn? fn = none ↔ 10 ≤ fn.toNat := by
  revert fn; decide

@[simp] theorem ArithFn.opClass_instr (f : ArithFn) (rd rs1 rs2 : RegIdx) :
    (f.instr rd rs1 rs2).opClass = .four .arithOp := by cases f <;> rfl

@[simp] theorem ArithFn.width_instr (f : ArithFn) (rd rs1 rs2 : RegIdx) : (f.instr rd rs1 rs2).width = .w4 := by
  cases f <;> rfl

theorem Instr.width_of_opClass (i : Instr) :
    (∀ o, i.opClass = .one o → i.width = .w1) ∧ (∀ o, i.opClass = .two o → i.width = .w2) ∧
    (∀ o, i.opClass = .four o → i.width = .w4) ∧ (i.opClass = .move → i.width = .w2 ∨ i.width = .w8) := by
  cases i <;> simp [Instr.opClass, Instr.width]

@[simp] theorem ArithFn.encode_instr (f : ArithFn) (rd rs1 rs2 : RegIdx) :
    encode (f.instr rd rs1 rs2) = bytes4 (encodeArith f rd rs1 rs2) := by cases f <;> rfl

@[simp] theorem TimerId.ofBit_bit (t : TimerId) : TimerId.ofBit t.bit = t := by cases t <;> rfl

/-! ### Fields -/

section Fields
variable {w w' n : Nat}

theorem Field.get_or (f : Field w) (a b : BitVec n) : f.get (a ||| b) = f.get a ||| f.get b := by
  apply BitVec.eq_of_getLsbD_eq
  intro k hk
  simp [Field.get, hk]

/-- A field read from where it was put. -/
theorem Field.get_put (f : Field w) (h : f.lo + w ≤ n) (v : BitVec w) : f.get (f.put n v) = v := by
  apply BitVec.eq_of_getLsbD_eq
  intro k hk
  have h1 : f.lo + k < n := by omega
  simp [Field.get, Field.put, hk, h1]

/-- A field read where another, disjoint one was put. -/
theorem Field.get_put_of_disjoint (f : Field w) (g : Field w') (h : f.lo + w ≤ g.lo ∨ g.lo + w' ≤ f.lo)
    (v : BitVec w') : f.get (g.put n v) = 0#w := by
  apply BitVec.eq_of_getLsbD_eq
  intro k hk
  simp only [Field.get, Field.put, BitVec.getLsbD_extractLsb', BitVec.getLsbD_shiftLeft, BitVec.getLsbD_setWidth,
    BitVec.getLsbD_zero]
  rcases h with h | h
  · have : f.lo + k < g.lo := by omega
    simp [this]
  · have : v.getLsbD (f.lo + k - g.lo) = false := BitVec.getLsbD_of_ge _ _ (by omega)
    simp [this]

/-- The same, its side condition a check that `decide` closes (for use with a discharger). -/
theorem Field.get_put_apart (f : Field w) (g : Field w') (v : BitVec w')
    (h : (decide (f.lo + w ≤ g.lo) || decide (g.lo + w' ≤ f.lo)) = true) : f.get (g.put n v) = 0#w :=
  Field.get_put_of_disjoint f g (by simpa using h) v

/-! The value of an assembled word: fields put from the top down. -/

theorem Field.toNat_put (f : Field w) (v : BitVec w) (h : f.lo + w ≤ n) : (f.put n v).toNat = v.toNat * 2 ^ f.lo := by
  have h1 : v.toNat * 2 ^ f.lo < 2 ^ n := by
    calc v.toNat * 2 ^ f.lo < 2 ^ w * 2 ^ f.lo := Nat.mul_lt_mul_of_pos_right v.isLt (by positivity)
      _ = 2 ^ (f.lo + w) := by rw [← pow_add, Nat.add_comm]
      _ ≤ 2 ^ n := Nat.pow_le_pow_right (by omega) h
  have h2 : v.toNat < 2 ^ n := lt_of_lt_of_le v.isLt (Nat.pow_le_pow_right (by omega) (by omega))
  simp only [Field.put, BitVec.toNat_shiftLeft, BitVec.toNat_setWidth, Nat.mod_eq_of_lt h2, Nat.shiftLeft_eq,
    Nat.mod_eq_of_lt h1]

/-- A field put below everything already there adds its value. -/
theorem Field.toNat_or_put (a : BitVec n) (f : Field w) (v : BitVec w) (h : f.lo + w ≤ n) (hi : Nat)
    (hle : f.lo + w ≤ hi) (ha : 2 ^ hi ∣ a.toNat) : (a ||| f.put n v).toNat = a.toNat + v.toNat * 2 ^ f.lo := by
  rw [BitVec.toNat_or, Field.toNat_put f v h]
  obtain ⟨m, hm⟩ := ha
  have h1 : v.toNat * 2 ^ f.lo < 2 ^ hi := by
    calc v.toNat * 2 ^ f.lo < 2 ^ w * 2 ^ f.lo := Nat.mul_lt_mul_of_pos_right v.isLt (by positivity)
      _ = 2 ^ (f.lo + w) := by rw [← pow_add, Nat.add_comm]
      _ ≤ 2 ^ hi := Nat.pow_le_pow_right (by omega) hle
  rw [hm, ← Nat.shiftLeft_eq, mul_comm, ← Nat.shiftLeft_eq, Nat.shiftLeft_add_eq_or_of_lt]
  rw [Nat.shiftLeft_eq]
  exact h1

end Fields

/-! ### Words and their bytes -/

theorem bytes2_join (v : BitVec 16) : v.extractLsb' 8 8 ++ v.extractLsb' 0 8 = v := by
  rw [BitVec.extractLsb'_append_extractLsb'_eq_extractLsb' (by rfl)]
  exact BitVec.extractLsb'_eq_self

theorem bytes4_join (v : BitVec 32) :
    v.extractLsb' 24 8 ++ v.extractLsb' 16 8 ++ v.extractLsb' 8 8 ++ v.extractLsb' 0 8 = v := by
  rw [BitVec.extractLsb'_append_extractLsb'_eq_extractLsb' (by rfl),
    BitVec.extractLsb'_append_extractLsb'_eq_extractLsb' (by rfl),
    BitVec.extractLsb'_append_extractLsb'_eq_extractLsb' (by rfl)]
  exact BitVec.extractLsb'_eq_self

theorem bytes8_join (v : BitVec 64) :
    v.extractLsb' 56 8 ++ v.extractLsb' 48 8 ++ v.extractLsb' 40 8 ++ v.extractLsb' 32 8 ++ v.extractLsb' 24 8
      ++ v.extractLsb' 16 8 ++ v.extractLsb' 8 8 ++ v.extractLsb' 0 8 = v := by
  rw [BitVec.extractLsb'_append_extractLsb'_eq_extractLsb' (by rfl),
    BitVec.extractLsb'_append_extractLsb'_eq_extractLsb' (by rfl),
    BitVec.extractLsb'_append_extractLsb'_eq_extractLsb' (by rfl),
    BitVec.extractLsb'_append_extractLsb'_eq_extractLsb' (by rfl),
    BitVec.extractLsb'_append_extractLsb'_eq_extractLsb' (by rfl),
    BitVec.extractLsb'_append_extractLsb'_eq_extractLsb' (by rfl),
    BitVec.extractLsb'_append_extractLsb'_eq_extractLsb' (by rfl)]
  exact BitVec.extractLsb'_eq_self

/-! The bits of bytes put together, most significant byte first. -/

theorem getLsbD_join2 (b0 b1 : Byte) (k : Nat) :
    BitVec.getLsbD (w := 16) (b0 ++ b1) k = if k < 8 then b1.getLsbD k else b0.getLsbD (k - 8) :=
  BitVec.getLsbD_append

theorem getLsbD_join4 (b0 b1 b2 b3 : Byte) (k : Nat) :
    BitVec.getLsbD (w := 32) (b0 ++ b1 ++ b2 ++ b3) k =
      if k < 8 then b3.getLsbD k else if k < 16 then b2.getLsbD (k - 8) else if k < 24 then b1.getLsbD (k - 16)
      else b0.getLsbD (k - 24) := by
  have h : (b0 ++ b1 ++ b2 ++ b3).getLsbD k = _ := BitVec.getLsbD_append
  refine h.trans ?_
  iterate 2 rw [BitVec.getLsbD_append]
  simp only [Nat.sub_sub]
  split_ifs <;> first | rfl | (exfalso; omega)

theorem getLsbD_join8 (b0 b1 b2 b3 b4 b5 b6 b7 : Byte) (k : Nat) :
    BitVec.getLsbD (w := 64) (b0 ++ b1 ++ b2 ++ b3 ++ b4 ++ b5 ++ b6 ++ b7) k =
      if k < 8 then b7.getLsbD k else if k < 16 then b6.getLsbD (k - 8) else if k < 24 then b5.getLsbD (k - 16)
      else if k < 32 then b4.getLsbD (k - 24) else if k < 40 then b3.getLsbD (k - 32)
      else if k < 48 then b2.getLsbD (k - 40) else if k < 56 then b1.getLsbD (k - 48) else b0.getLsbD (k - 56) := by
  have h : (b0 ++ b1 ++ b2 ++ b3 ++ b4 ++ b5 ++ b6 ++ b7).getLsbD k = _ := BitVec.getLsbD_append
  refine h.trans ?_
  iterate 6 rw [BitVec.getLsbD_append]
  simp only [Nat.sub_sub]
  split_ifs <;> first | rfl | (exfalso; omega)

/-- The fields of a four-byte instruction, byte by byte. -/
theorem join4_fields (b0 b1 b2 b3 : Byte) :
    BitVec.extractLsb' 24 4 (b0 ++ b1 ++ b2 ++ b3 : BitVec 32) = b0.extractLsb' 0 4 ∧
    BitVec.extractLsb' 20 4 (b0 ++ b1 ++ b2 ++ b3 : BitVec 32) = b1.extractLsb' 4 4 ∧
    BitVec.extractLsb' 16 4 (b0 ++ b1 ++ b2 ++ b3 : BitVec 32) = b1.extractLsb' 0 4 ∧
    BitVec.extractLsb' 12 4 (b0 ++ b1 ++ b2 ++ b3 : BitVec 32) = b2.extractLsb' 4 4 ∧
    BitVec.extractLsb' 8 8 (b0 ++ b1 ++ b2 ++ b3 : BitVec 32) = b2 ∧
    BitVec.extractLsb' 15 5 (b0 ++ b1 ++ b2 ++ b3 : BitVec 32) = (b1 ++ b2 : BitVec 16).extractLsb' 7 5 ∧
    BitVec.extractLsb' 10 5 (b0 ++ b1 ++ b2 ++ b3 : BitVec 32) = b2.extractLsb' 2 5 ∧
    BitVec.extractLsb' 0 24 (b0 ++ b1 ++ b2 ++ b3 : BitVec 32) = (b1 ++ b2 ++ b3 : BitVec 24) := by
  refine ⟨?_, ?_, ?_, ?_, ?_, ?_, ?_, ?_⟩ <;> apply BitVec.eq_of_getLsbD_eq <;> intro k hk <;>
    simp only [BitVec.getLsbD_extractLsb', hk, decide_true, Bool.true_and, getLsbD_join4, getLsbD_join2]
  case refine_8 =>
    have h : (b1 ++ b2 ++ b3).getLsbD k = _ := BitVec.getLsbD_append
    refine Eq.trans ?_ h.symm
    rw [BitVec.getLsbD_append]
    simp only [Nat.sub_sub]
    split_ifs <;> first | (exfalso; omega) | (congr 1; omega)
  all_goals split_ifs <;> first | (exfalso; omega) | (congr 1; omega)

section Window
variable (b0 b1 b2 b3 b4 b5 b6 b7 : Byte)

/-! The parts of the move family's window (spec/30_encoding.md R83). -/

theorem window_half :
    Layout.windowHalf.get (n := 64) (b0 ++ b1 ++ b2 ++ b3 ++ b4 ++ b5 ++ b6 ++ b7) = (b0 ++ b1 : BitVec 16) := by
  apply BitVec.eq_of_getLsbD_eq
  intro k hk
  simp only [Field.get, Layout.windowHalf, BitVec.getLsbD_extractLsb', hk, decide_true, Bool.true_and, getLsbD_join8,
    getLsbD_join2]
  split_ifs <;> first | (exfalso; omega) | (congr 1; omega)

theorem window_d :
    Layout.windowD.get (n := 64) (b0 ++ b1 ++ b2 ++ b3 ++ b4 ++ b5 ++ b6 ++ b7) = b0.extractLsb' 3 1 := by
  apply BitVec.eq_of_getLsbD_eq
  intro k hk
  simp only [Field.get, Layout.windowD, BitVec.getLsbD_extractLsb', hk, decide_true, Bool.true_and, getLsbD_join8]
  split_ifs <;> first | (exfalso; omega) | (congr 1; omega)

theorem window_rest :
    Layout.windowRest.get (n := 64) (b0 ++ b1 ++ b2 ++ b3 ++ b4 ++ b5 ++ b6 ++ b7)
      = (b2 ++ b3 ++ b4 ++ b5 ++ b6 ++ b7 : BitVec 48) := by
  apply BitVec.eq_of_getLsbD_eq
  intro k hk
  have h : (b2 ++ b3 ++ b4 ++ b5 ++ b6 ++ b7).getLsbD k = _ := BitVec.getLsbD_append
  refine Eq.trans ?_ h.symm
  iterate 4 rw [BitVec.getLsbD_append]
  simp only [Field.get, Layout.windowRest, BitVec.getLsbD_extractLsb', hk, decide_true, Bool.true_and, getLsbD_join8,
    Nat.sub_sub]
  split_ifs <;> first | (exfalso; omega) | (congr 1; omega)

theorem rest_eq_zero_iff :
    (b2 ++ b3 ++ b4 ++ b5 ++ b6 ++ b7 : BitVec 48) = 0#48
      ↔ b2 = 0#8 ∧ b3 = 0#8 ∧ b4 = 0#8 ∧ b5 = 0#8 ∧ b6 = 0#8 ∧ b7 = 0#8 := by
  constructor
  · intro h
    have key : ∀ k, (b2 ++ b3 ++ b4 ++ b5 ++ b6 ++ b7).getLsbD k = false := by
      intro k
      exact (congrArg (fun v : BitVec 48 => v.getLsbD k) h).trans (by simp)
    simp only [BitVec.getLsbD_append] at key
    refine ⟨?_, ?_, ?_, ?_, ?_, ?_⟩ <;> apply BitVec.eq_of_getLsbD_eq <;> intro k hk
    · have := key (40 + k)
      simpa [Nat.sub_sub, show ¬ (40 + k < 8) by omega, show ¬ (40 + k - 8 < 8) by omega, show ¬ (40 + k - 16 < 8) by omega,
        show ¬ (40 + k - 24 < 8) by omega, show ¬ (40 + k - 32 < 8) by omega] using this
    · have := key (32 + k)
      simpa [Nat.sub_sub, show ¬ (32 + k < 8) by omega, show ¬ (32 + k - 8 < 8) by omega, show ¬ (32 + k - 16 < 8) by omega,
        show ¬ (32 + k - 24 < 8) by omega, hk] using this
    · have := key (24 + k)
      simpa [Nat.sub_sub, show ¬ (24 + k < 8) by omega, show ¬ (24 + k - 8 < 8) by omega, show ¬ (24 + k - 16 < 8) by omega, hk] using this
    · have := key (16 + k); simpa [Nat.sub_sub, show ¬ (16 + k < 8) by omega, show ¬ (16 + k - 8 < 8) by omega, hk] using this
    · have := key (8 + k); simpa [Nat.sub_sub, show ¬ (8 + k < 8) by omega, hk] using this
    · have := key k; simpa [hk] using this
  · rintro ⟨rfl, rfl, rfl, rfl, rfl, rfl⟩; rfl

end Window

theorem firstByteOp_get (b : Byte) : Layout.firstByteOp.get b = b.extractLsb' 4 4 := rfl

theorem firstByteOp_of_word1 (v : BitVec 8) : Layout.firstByteOp.get v = Layout.op1.get v := rfl

theorem firstByteOp_of_word2 (v : BitVec 16) : Layout.firstByteOp.get (v.extractLsb' 8 8) = Layout.op2.get v := by
  apply BitVec.eq_of_getLsbD_eq; intro k hk
  have : 4 + k < 8 := by omega
  simp [Field.get, Layout.firstByteOp, Layout.op2, hk, this, ← Nat.add_assoc]

theorem firstByteOp_of_word4 (v : BitVec 32) : Layout.firstByteOp.get (v.extractLsb' 24 8) = Layout.op4.get v := by
  apply BitVec.eq_of_getLsbD_eq; intro k hk
  have : 4 + k < 8 := by omega
  simp [Field.get, Layout.firstByteOp, Layout.op4, hk, this, ← Nat.add_assoc]

theorem firstByteOp_of_word8 (v : BitVec 64) : Layout.firstByteOp.get (v.extractLsb' 56 8) = Layout.op8.get v := by
  apply BitVec.eq_of_getLsbD_eq; intro k hk
  have : 4 + k < 8 := by omega
  simp [Field.get, Layout.firstByteOp, Layout.op8, hk, this, ← Nat.add_assoc]

/-! ### The decoder, by what the first byte selects -/

section Classes
variable {b0 : Byte} {rest : List Byte}

@[simp] theorem decode_nil : decode [] = .reject .noByte := rfl

theorem decode_unknown (h : opClass? (Layout.firstByteOp.get b0) = none) :
    decode (b0 :: rest) = .reject (.unknownOpcode (Layout.firstByteOp.get b0)) := by
  simp only [decode, h]

theorem decode_one {o : OneByteOp} (h : opClass? (Layout.firstByteOp.get b0) = some (.one o)) :
    decode (b0 :: rest) = .instr (decodeOne o b0) := by
  simp only [decode, h]

theorem decode_two {o : TwoByteOp} {b1 : Byte} (h : opClass? (Layout.firstByteOp.get b0) = some (.two o)) :
    decode (b0 :: b1 :: rest) = .instr (decodeTwo o (b0 ++ b1)) := by
  simp only [decode, h]

theorem decode_two_truncated {o : TwoByteOp} (h : opClass? (Layout.firstByteOp.get b0) = some (.two o)) :
    decode [b0] = .reject (.truncated (Layout.firstByteOp.get b0) .w2) := by
  simp only [decode, h]

theorem decode_four {o : FourByteOp} {b1 b2 b3 : Byte}
    (h : opClass? (Layout.firstByteOp.get b0) = some (.four o)) :
    decode (b0 :: b1 :: b2 :: b3 :: rest) = decodeFour o (b0 ++ b1 ++ b2 ++ b3) := by
  simp only [decode, h]

theorem decode_four_truncated {o : FourByteOp} (h : opClass? (Layout.firstByteOp.get b0) = some (.four o))
    (hl : rest.length < 3) : decode (b0 :: rest) = .reject (.truncated (Layout.firstByteOp.get b0) .w4) := by
  match rest, hl with
  | [], _ => simp only [decode, h]
  | [_], _ => simp only [decode, h]
  | [_, _], _ => simp only [decode, h]

theorem decode_move {b1 b2 b3 b4 b5 b6 b7 : Byte} (h : opClass? (Layout.firstByteOp.get b0) = some .move) :
    decode (b0 :: b1 :: b2 :: b3 :: b4 :: b5 :: b6 :: b7 :: rest)
      = .instr (decodeMove (b0 ++ b1 ++ b2 ++ b3 ++ b4 ++ b5 ++ b6 ++ b7)) := by
  simp only [decode, h]

theorem decode_move_window (h : opClass? (Layout.firstByteOp.get b0) = some .move) (hl : rest.length < 7) :
    decode (b0 :: rest) = .reject (.moveWindow (Layout.firstByteOp.get b0)) := by
  match rest, hl with
  | [], _ => simp only [decode, h]
  | [_], _ => simp only [decode, h]
  | [_, _], _ => simp only [decode, h]
  | [_, _, _], _ => simp only [decode, h]
  | [_, _, _, _], _ => simp only [decode, h]
  | [_, _, _, _, _], _ => simp only [decode, h]
  | [_, _, _, _, _, _], _ => simp only [decode, h]

end Classes

/-! ### What a nibble selects -/

theorem opClass?_one {op : BitVec 4} (h : op.toNat ≤ 2) : ∃ o, opClass? op = some (.one o) := by
  have key : ∀ op : BitVec 4, op.toNat ≤ 2 → opClass? op = some (.one .trigger) ∨ opClass? op = some (.one .ret) ∨
      opClass? op = some (.one .timerSet) := by decide
  rcases key op h with h | h | h <;> exact ⟨_, h⟩

theorem opClass?_two {op : BitVec 4} (h : op = 3#4 ∨ op = 4#4 ∨ 6 ≤ op.toNat ∧ op.toNat ≤ 10) :
    ∃ o, opClass? op = some (.two o) := by
  have key : ∀ op : BitVec 4, (op = 3#4 ∨ op = 4#4 ∨ 6 ≤ op.toNat ∧ op.toNat ≤ 10) →
      opClass? op = some (.two .triggerPos) ∨ opClass? op = some (.two .jmp) ∨ opClass? op = some (.two .bl) ∨
      opClass? op = some (.two .domainSet) ∨ opClass? op = some (.two .display) ∨ opClass? op = some (.two .exec) ∨
      opClass? op = some (.two .edgeDetect) := by decide
  rcases key op h with h | h | h | h | h | h | h <;> exact ⟨_, h⟩

theorem opClass?_four {op : BitVec 4} (h : 11 ≤ op.toNat ∧ op.toNat ≤ 14) : ∃ o, opClass? op = some (.four o) := by
  have key : ∀ op : BitVec 4, 11 ≤ op.toNat ∧ op.toNat ≤ 14 → opClass? op = some (.four .jmpc) ∨
      opClass? op = some (.four .arithOp) ∨ opClass? op = some (.four .bitSlice) ∨
      opClass? op = some (.four .load) := by decide
  rcases key op h with h | h | h | h <;> exact ⟨_, h⟩

/-- ARITH_OP with a valid function. -/
theorem decode_arith {b0 b1 b2 b3 : Byte} {rest : List Byte} {f : ArithFn} (h : b0.extractLsb' 4 4 = 0xC#4)
    (hf : arithFn? (b0.extractLsb' 0 4) = some f) :
    decode (b0 :: b1 :: b2 :: b3 :: rest)
      = .instr (f.instr (b1.extractLsb' 4 4) (b1.extractLsb' 0 4) (b2.extractLsb' 4 4)) := by
  rw [decode_four (o := .arithOp) (by rw [firstByteOp_get, h]; rfl)]
  simp only [decodeFour, Field.get, Layout.arithFn, Layout.arithRd, Layout.arithRs1, Layout.arithRs2,
    join4_fields b0 b1 b2 b3, hf]

/-! ### The decoder on a whole word -/

theorem decode_word1 {o : OneByteOp} (v : BitVec 8) (rest : List Byte) (h : Layout.op1.get v = opNibble (.one o)) :
    decode (v :: rest) = .instr (decodeOne o v) :=
  decode_one (by rw [firstByteOp_of_word1, h, opClass?_opNibble])

theorem decode_word2 {o : TwoByteOp} (v : BitVec 16) (rest : List Byte) (h : Layout.op2.get v = opNibble (.two o)) :
    decode (bytes2 v ++ rest) = .instr (decodeTwo o v) := by
  have h' : opClass? (Layout.firstByteOp.get (v.extractLsb' 8 8)) = some (.two o) := by
    rw [firstByteOp_of_word2, h, opClass?_opNibble]
  exact (decode_two h').trans (by rw [bytes2_join])

theorem decode_word4 {o : FourByteOp} (v : BitVec 32) (rest : List Byte) (h : Layout.op4.get v = opNibble (.four o)) :
    decode (bytes4 v ++ rest) = decodeFour o v := by
  have h' : opClass? (Layout.firstByteOp.get (v.extractLsb' 24 8)) = some (.four o) := by
    rw [firstByteOp_of_word4, h, opClass?_opNibble]
  exact (decode_four h').trans (by rw [bytes4_join])

theorem decode_word8 (v : BitVec 64) (rest : List Byte) (h : Layout.op8.get v = opNibble .move) :
    decode (bytes8 v ++ rest) = .instr (decodeMove v) := by
  have h' : opClass? (Layout.firstByteOp.get (v.extractLsb' 56 8)) = some .move := by
    rw [firstByteOp_of_word8, h, opClass?_opNibble]
  exact (decode_move h').trans (by rw [bytes8_join])

/-! ### Every first byte selects one class -/

/-- What an answer of the decoder says about the bytes: the one inversion of `decode`. -/
theorem decode_cons_cases (b0 : Byte) (rest : List Byte) :
    (opClass? (Layout.firstByteOp.get b0) = none ∧
      decode (b0 :: rest) = .reject (.unknownOpcode (Layout.firstByteOp.get b0))) ∨
    (∃ o, opClass? (Layout.firstByteOp.get b0) = some (.one o) ∧ decode (b0 :: rest) = .instr (decodeOne o b0)) ∨
    (∃ o, opClass? (Layout.firstByteOp.get b0) = some (.two o) ∧
      ((rest = [] ∧ decode (b0 :: rest) = .reject (.truncated (Layout.firstByteOp.get b0) .w2)) ∨
       ∃ b1 tail, rest = b1 :: tail ∧ decode (b0 :: rest) = .instr (decodeTwo o (b0 ++ b1)))) ∨
    (∃ o, opClass? (Layout.firstByteOp.get b0) = some (.four o) ∧
      ((rest.length < 3 ∧ decode (b0 :: rest) = .reject (.truncated (Layout.firstByteOp.get b0) .w4)) ∨
       ∃ b1 b2 b3 tail, rest = b1 :: b2 :: b3 :: tail ∧ decode (b0 :: rest) = decodeFour o (b0 ++ b1 ++ b2 ++ b3))) ∨
    (opClass? (Layout.firstByteOp.get b0) = some .move ∧
      ((rest.length < 7 ∧ decode (b0 :: rest) = .reject (.moveWindow (Layout.firstByteOp.get b0))) ∨
       ∃ b1 b2 b3 b4 b5 b6 b7 tail, rest = b1 :: b2 :: b3 :: b4 :: b5 :: b6 :: b7 :: tail ∧
        decode (b0 :: rest) = .instr (decodeMove (b0 ++ b1 ++ b2 ++ b3 ++ b4 ++ b5 ++ b6 ++ b7)))) := by
  rcases hc : opClass? (Layout.firstByteOp.get b0) with _ | (o | o | o | _)
  · exact .inl ⟨rfl, decode_unknown hc⟩
  · exact .inr (.inl ⟨o, rfl, decode_one hc⟩)
  · refine .inr (.inr (.inl ⟨o, rfl, ?_⟩))
    match rest with
    | [] => exact .inl ⟨rfl, decode_two_truncated hc⟩
    | b1 :: tail => exact .inr ⟨b1, tail, rfl, decode_two hc⟩
  · refine .inr (.inr (.inr (.inl ⟨o, rfl, ?_⟩)))
    by_cases hl : rest.length < 3
    · exact .inl ⟨hl, decode_four_truncated hc hl⟩
    · match rest, hl with
      | b1 :: b2 :: b3 :: tail, _ => exact .inr ⟨b1, b2, b3, tail, rfl, decode_four hc⟩
      | [], hl | [_], hl | [_, _], hl => simp at hl
  · refine .inr (.inr (.inr (.inr ⟨rfl, ?_⟩)))
    by_cases hl : rest.length < 7
    · exact .inl ⟨hl, decode_move_window hc hl⟩
    · match rest, hl with
      | b1 :: b2 :: b3 :: b4 :: b5 :: b6 :: b7 :: tail, _ =>
        exact .inr ⟨b1, b2, b3, b4, b5, b6, b7, tail, rfl, decode_move hc⟩
      | [], hl | [_], hl | [_, _], hl | [_, _, _], hl | [_, _, _, _], hl | [_, _, _, _, _], hl
      | [_, _, _, _, _, _], hl => simp at hl

end Sys2Proof
end

