-- ==== Sys2Proof/Laws/State.lean ====
section
/-! SUPPORT. One lemma per field per update: what each named update of the state leaves in each field. -/

namespace Sys2Proof.Machine

variable (s : State)

/-! ### State.setPc -/

@[simp] theorem State.setPc_regs (v : Word) : (s.setPc v).regs = s.regs := rfl
@[simp] theorem State.setPc_pc (v : Word) : (s.setPc v).pc = v := rfl
@[simp] theorem State.setPc_prev (v : Word) : (s.setPc v).prev = s.prev := rfl
@[simp] theorem State.setPc_domain (v : Word) : (s.setPc v).domain = s.domain := rfl
@[simp] theorem State.setPc_counters (v : Word) : (s.setPc v).counters = s.counters := rfl
@[simp] theorem State.setPc_timer0 (v : Word) : (s.setPc v).timer0 = s.timer0 := rfl
@[simp] theorem State.setPc_timer1 (v : Word) : (s.setPc v).timer1 = s.timer1 := rfl
@[simp] theorem State.setPc_status (v : Word) : (s.setPc v).status = s.status := rfl
@[simp] theorem State.setPc_dram (v : Word) : (s.setPc v).dram = s.dram := rfl
@[simp] theorem State.setPc_info (v : Word) : (s.setPc v).info = s.info := rfl
@[simp] theorem State.setPc_trace (v : Word) : (s.setPc v).trace = s.trace := rfl

/-! ### State.advance -/

@[simp] theorem State.advance_regs (w : Width) : (s.advance w).regs = s.regs := rfl
@[simp] theorem State.advance_pc (w : Width) : (s.advance w).pc = s.pc + BitVec.ofNat 32 w.bytes := rfl
@[simp] theorem State.advance_prev (w : Width) : (s.advance w).prev = s.prev := rfl
@[simp] theorem State.advance_domain (w : Width) : (s.advance w).domain = s.domain := rfl
@[simp] theorem State.advance_counters (w : Width) : (s.advance w).counters = s.counters := rfl
@[simp] theorem State.advance_timer0 (w : Width) : (s.advance w).timer0 = s.timer0 := rfl
@[simp] theorem State.advance_timer1 (w : Width) : (s.advance w).timer1 = s.timer1 := rfl
@[simp] theorem State.advance_status (w : Width) : (s.advance w).status = s.status := rfl
@[simp] theorem State.advance_dram (w : Width) : (s.advance w).dram = s.dram := rfl
@[simp] theorem State.advance_info (w : Width) : (s.advance w).info = s.info := rfl
@[simp] theorem State.advance_trace (w : Width) : (s.advance w).trace = s.trace := rfl

/-! ### State.emit -/

@[simp] theorem State.emit_regs (e : Event) : (s.emit e).regs = s.regs := rfl
@[simp] theorem State.emit_pc (e : Event) : (s.emit e).pc = s.pc := rfl
@[simp] theorem State.emit_prev (e : Event) : (s.emit e).prev = s.prev := rfl
@[simp] theorem State.emit_domain (e : Event) : (s.emit e).domain = s.domain := rfl
@[simp] theorem State.emit_counters (e : Event) : (s.emit e).counters = s.counters := rfl
@[simp] theorem State.emit_timer0 (e : Event) : (s.emit e).timer0 = s.timer0 := rfl
@[simp] theorem State.emit_timer1 (e : Event) : (s.emit e).timer1 = s.timer1 := rfl
@[simp] theorem State.emit_status (e : Event) : (s.emit e).status = s.status := rfl
@[simp] theorem State.emit_dram (e : Event) : (s.emit e).dram = s.dram := rfl
@[simp] theorem State.emit_info (e : Event) : (s.emit e).info = s.info := rfl
@[simp] theorem State.emit_trace (e : Event) : (s.emit e).trace = s.trace ++ [.event e] := rfl

/-! ### State.warn -/

@[simp] theorem State.warn_regs (w : Warning) : (s.warn w).regs = s.regs := rfl
@[simp] theorem State.warn_pc (w : Warning) : (s.warn w).pc = s.pc := rfl
@[simp] theorem State.warn_prev (w : Warning) : (s.warn w).prev = s.prev := rfl
@[simp] theorem State.warn_domain (w : Warning) : (s.warn w).domain = s.domain := rfl
@[simp] theorem State.warn_counters (w : Warning) : (s.warn w).counters = s.counters := rfl
@[simp] theorem State.warn_timer0 (w : Warning) : (s.warn w).timer0 = s.timer0 := rfl
@[simp] theorem State.warn_timer1 (w : Warning) : (s.warn w).timer1 = s.timer1 := rfl
@[simp] theorem State.warn_status (w : Warning) : (s.warn w).status = s.status := rfl
@[simp] theorem State.warn_dram (w : Warning) : (s.warn w).dram = s.dram := rfl
@[simp] theorem State.warn_info (w : Warning) : (s.warn w).info = s.info := rfl
@[simp] theorem State.warn_trace (w : Warning) : (s.warn w).trace = s.trace ++ [.warning w] := rfl

/-! ### State.takeFault -/

@[simp] theorem State.takeFault_regs (rec : FaultRecord) : (s.takeFault rec).regs = s.regs := rfl
@[simp] theorem State.takeFault_pc (rec : FaultRecord) : (s.takeFault rec).pc = s.pc := rfl
@[simp] theorem State.takeFault_prev (rec : FaultRecord) : (s.takeFault rec).prev = s.prev := rfl
@[simp] theorem State.takeFault_domain (rec : FaultRecord) : (s.takeFault rec).domain = s.domain := rfl
@[simp] theorem State.takeFault_counters (rec : FaultRecord) : (s.takeFault rec).counters = s.counters := rfl
@[simp] theorem State.takeFault_timer0 (rec : FaultRecord) : (s.takeFault rec).timer0 = s.timer0 := rfl
@[simp] theorem State.takeFault_timer1 (rec : FaultRecord) : (s.takeFault rec).timer1 = s.timer1 := rfl
@[simp] theorem State.takeFault_status (rec : FaultRecord) : (s.takeFault rec).status = .faulted rec := rfl
@[simp] theorem State.takeFault_dram (rec : FaultRecord) : (s.takeFault rec).dram = s.dram := rfl
@[simp] theorem State.takeFault_info (rec : FaultRecord) : (s.takeFault rec).info = s.info := rfl
@[simp] theorem State.takeFault_trace (rec : FaultRecord) : (s.takeFault rec).trace = s.trace := rfl

/-! ### snapshot -/

@[simp] theorem snapshot_regs (pre : Vector Word 16) : (snapshot pre s).regs = s.regs := rfl
@[simp] theorem snapshot_pc (pre : Vector Word 16) : (snapshot pre s).pc = s.pc := rfl
@[simp] theorem snapshot_prev (pre : Vector Word 16) : (snapshot pre s).prev = snapshotOf Readings.snapshotMode pre := rfl
@[simp] theorem snapshot_domain (pre : Vector Word 16) : (snapshot pre s).domain = s.domain := rfl
@[simp] theorem snapshot_counters (pre : Vector Word 16) : (snapshot pre s).counters = s.counters := rfl
@[simp] theorem snapshot_timer0 (pre : Vector Word 16) : (snapshot pre s).timer0 = s.timer0 := rfl
@[simp] theorem snapshot_timer1 (pre : Vector Word 16) : (snapshot pre s).timer1 = s.timer1 := rfl
@[simp] theorem snapshot_status (pre : Vector Word 16) : (snapshot pre s).status = s.status := rfl
@[simp] theorem snapshot_dram (pre : Vector Word 16) : (snapshot pre s).dram = s.dram := rfl
@[simp] theorem snapshot_info (pre : Vector Word 16) : (snapshot pre s).info = s.info := rfl
@[simp] theorem snapshot_trace (pre : Vector Word 16) : (snapshot pre s).trace = s.trace := rfl

/-! ### State.setReg: every field but the registers -/

@[simp] theorem State.setReg_pc (i : Fin 17) (v : Word) : (s.setReg i v).pc = s.pc := by
  unfold State.setReg; split <;> rfl
@[simp] theorem State.setReg_prev (i : Fin 17) (v : Word) : (s.setReg i v).prev = s.prev := by
  unfold State.setReg; split <;> rfl
@[simp] theorem State.setReg_domain (i : Fin 17) (v : Word) : (s.setReg i v).domain = s.domain := by
  unfold State.setReg; split <;> rfl
@[simp] theorem State.setReg_counters (i : Fin 17) (v : Word) : (s.setReg i v).counters = s.counters := by
  unfold State.setReg; split <;> rfl
@[simp] theorem State.setReg_timer0 (i : Fin 17) (v : Word) : (s.setReg i v).timer0 = s.timer0 := by
  unfold State.setReg; split <;> rfl
@[simp] theorem State.setReg_timer1 (i : Fin 17) (v : Word) : (s.setReg i v).timer1 = s.timer1 := by
  unfold State.setReg; split <;> rfl
@[simp] theorem State.setReg_status (i : Fin 17) (v : Word) : (s.setReg i v).status = s.status := by
  unfold State.setReg; split <;> rfl
@[simp] theorem State.setReg_dram (i : Fin 17) (v : Word) : (s.setReg i v).dram = s.dram := by
  unfold State.setReg; split <;> rfl
@[simp] theorem State.setReg_info (i : Fin 17) (v : Word) : (s.setReg i v).info = s.info := by
  unfold State.setReg; split <;> rfl
@[simp] theorem State.setReg_trace (i : Fin 17) (v : Word) : (s.setReg i v).trace = s.trace := by
  unfold State.setReg; split <;> rfl

/-! ### State.setX -/

@[simp] theorem State.setX_pc (r : RegIdx) (v : Word) : (s.setX r v).pc = s.pc := State.setReg_pc s _ v
@[simp] theorem State.setX_prev (r : RegIdx) (v : Word) : (s.setX r v).prev = s.prev := State.setReg_prev s _ v
@[simp] theorem State.setX_domain (r : RegIdx) (v : Word) : (s.setX r v).domain = s.domain := State.setReg_domain s _ v
@[simp] theorem State.setX_counters (r : RegIdx) (v : Word) : (s.setX r v).counters = s.counters := State.setReg_counters s _ v
@[simp] theorem State.setX_timer0 (r : RegIdx) (v : Word) : (s.setX r v).timer0 = s.timer0 := State.setReg_timer0 s _ v
@[simp] theorem State.setX_timer1 (r : RegIdx) (v : Word) : (s.setX r v).timer1 = s.timer1 := State.setReg_timer1 s _ v
@[simp] theorem State.setX_status (r : RegIdx) (v : Word) : (s.setX r v).status = s.status := State.setReg_status s _ v
@[simp] theorem State.setX_dram (r : RegIdx) (v : Word) : (s.setX r v).dram = s.dram := State.setReg_dram s _ v
@[simp] theorem State.setX_info (r : RegIdx) (v : Word) : (s.setX r v).info = s.info := State.setReg_info s _ v
@[simp] theorem State.setX_trace (r : RegIdx) (v : Word) : (s.setX r v).trace = s.trace := State.setReg_trace s _ v

/-! ### State.setLr -/

@[simp] theorem State.setLr_pc (v : Word) : (s.setLr v).pc = s.pc := State.setReg_pc s _ v
@[simp] theorem State.setLr_prev (v : Word) : (s.setLr v).prev = s.prev := State.setReg_prev s _ v
@[simp] theorem State.setLr_domain (v : Word) : (s.setLr v).domain = s.domain := State.setReg_domain s _ v
@[simp] theorem State.setLr_counters (v : Word) : (s.setLr v).counters = s.counters := State.setReg_counters s _ v
@[simp] theorem State.setLr_timer0 (v : Word) : (s.setLr v).timer0 = s.timer0 := State.setReg_timer0 s _ v
@[simp] theorem State.setLr_timer1 (v : Word) : (s.setLr v).timer1 = s.timer1 := State.setReg_timer1 s _ v
@[simp] theorem State.setLr_status (v : Word) : (s.setLr v).status = s.status := State.setReg_status s _ v
@[simp] theorem State.setLr_dram (v : Word) : (s.setLr v).dram = s.dram := State.setReg_dram s _ v
@[simp] theorem State.setLr_info (v : Word) : (s.setLr v).info = s.info := State.setReg_info s _ v
@[simp] theorem State.setLr_trace (v : Word) : (s.setLr v).trace = s.trace := State.setReg_trace s _ v

/-! ### State.setTimer -/

@[simp] theorem State.setTimer_regs (t : TimerId) (r : Timer) : (s.setTimer t r).regs = s.regs := by cases t <;> rfl
@[simp] theorem State.setTimer_pc (t : TimerId) (r : Timer) : (s.setTimer t r).pc = s.pc := by cases t <;> rfl
@[simp] theorem State.setTimer_prev (t : TimerId) (r : Timer) : (s.setTimer t r).prev = s.prev := by cases t <;> rfl
@[simp] theorem State.setTimer_domain (t : TimerId) (r : Timer) : (s.setTimer t r).domain = s.domain := by cases t <;> rfl
@[simp] theorem State.setTimer_counters (t : TimerId) (r : Timer) : (s.setTimer t r).counters = s.counters := by cases t <;> rfl
@[simp] theorem State.setTimer_status (t : TimerId) (r : Timer) : (s.setTimer t r).status = s.status := by cases t <;> rfl
@[simp] theorem State.setTimer_dram (t : TimerId) (r : Timer) : (s.setTimer t r).dram = s.dram := by cases t <;> rfl
@[simp] theorem State.setTimer_info (t : TimerId) (r : Timer) : (s.setTimer t r).info = s.info := by cases t <;> rfl
@[simp] theorem State.setTimer_trace (t : TimerId) (r : Timer) : (s.setTimer t r).trace = s.trace := by cases t <;> rfl

@[simp] theorem State.timer_t0 : s.timer .t0 = s.timer0 := rfl
@[simp] theorem State.timer_t1 : s.timer .t1 = s.timer1 := rfl
@[simp] theorem State.setTimer_t0_timer0 (r : Timer) : (s.setTimer .t0 r).timer0 = r := rfl
@[simp] theorem State.setTimer_t0_timer1 (r : Timer) : (s.setTimer .t0 r).timer1 = s.timer1 := rfl
@[simp] theorem State.setTimer_t1_timer0 (r : Timer) : (s.setTimer .t1 r).timer0 = s.timer0 := rfl
@[simp] theorem State.setTimer_t1_timer1 (r : Timer) : (s.setTimer .t1 r).timer1 = r := rfl

theorem State.timer_setTimer (t k : TimerId) (r : Timer) :
    (s.setTimer t r).timer k = if k = t then r else s.timer k := by
  cases t <;> cases k <;> rfl

theorem State.timer_congr {s u : State} (h0 : u.timer0 = s.timer0) (h1 : u.timer1 = s.timer1) (k : TimerId) :
    u.timer k = s.timer k := by
  cases k <;> assumption

/-! ### Timers under the other updates -/

@[simp] theorem State.setPc_timer (v : Word) (k : TimerId) : (s.setPc v).timer k = s.timer k := by cases k <;> rfl
@[simp] theorem State.advance_timer (w : Width) (k : TimerId) : (s.advance w).timer k = s.timer k := by cases k <;> rfl
@[simp] theorem State.emit_timer (e : Event) (k : TimerId) : (s.emit e).timer k = s.timer k := by cases k <;> rfl
@[simp] theorem State.warn_timer (w : Warning) (k : TimerId) : (s.warn w).timer k = s.timer k := by cases k <;> rfl
@[simp] theorem State.takeFault_timer (r : FaultRecord) (k : TimerId) : (s.takeFault r).timer k = s.timer k := by
  cases k <;> rfl
@[simp] theorem snapshot_timer (pre : Vector Word 16) (k : TimerId) : (snapshot pre s).timer k = s.timer k := by
  cases k <;> rfl
@[simp] theorem State.setReg_timer (i : Fin 17) (v : Word) (k : TimerId) : (s.setReg i v).timer k = s.timer k := by
  cases k <;> simp

/-! ### Registers -/

@[simp] theorem State.getReg_zero : s.getReg 0 = 0#32 := rfl

theorem State.getReg_of_ne {i : Fin 17} (h : i ≠ 0) : s.getReg i = s.regs[i] := by simp [State.getReg, h]

@[simp] theorem State.setReg_zero (v : Word) : s.setReg 0 v = s := rfl

theorem State.getReg_setReg (i j : Fin 17) (v : Word) :
    (s.setReg i v).getReg j = if j = 0 then 0#32 else if j = i then v else s.getReg j := by
  unfold State.setReg State.getReg
  by_cases hj : j = 0
  · simp [hj]
  · by_cases hi : i = 0
    · have : j ≠ i := fun h => hj (h.trans hi)
      simp [hj, hi]
    · by_cases hij : j = i
      · subst hij; simp [hj]
      · have : i.val ≠ j.val := fun h => hij (Fin.ext h.symm)
        simp [hj, hi, hij, this]

theorem State.getReg_congr {s u : State} (h : u.regs = s.regs) (i : Fin 17) : u.getReg i = s.getReg i := by
  simp [State.getReg, h]

@[simp] theorem State.setPc_getReg (v : Word) (i : Fin 17) : (s.setPc v).getReg i = s.getReg i := rfl
@[simp] theorem State.advance_getReg (w : Width) (i : Fin 17) : (s.advance w).getReg i = s.getReg i := rfl
@[simp] theorem State.emit_getReg (e : Event) (i : Fin 17) : (s.emit e).getReg i = s.getReg i := rfl
@[simp] theorem State.warn_getReg (w : Warning) (i : Fin 17) : (s.warn w).getReg i = s.getReg i := rfl
@[simp] theorem State.takeFault_getReg (r : FaultRecord) (i : Fin 17) : (s.takeFault r).getReg i = s.getReg i := rfl

theorem fieldReg_val (r : RegIdx) : (fieldReg r).val = r.toNat := rfl

@[simp] theorem fieldReg_zero : fieldReg 0#4 = 0 := rfl

theorem fieldReg_ne_lr (r : RegIdx) : fieldReg r ≠ lrIdx := by
  intro h
  have := congrArg Fin.val h
  simp [fieldReg, lrIdx] at this
  omega

theorem fieldReg_injective {r r' : RegIdx} (h : fieldReg r = fieldReg r') : r = r' :=
  BitVec.eq_of_toNat_eq (Fin.mk.inj h)

theorem State.latch_getElem (k : Nat) (h : k < 16) : s.latch[k] = s.getReg ⟨k, by omega⟩ := by
  simp [State.latch]

/-! ### CHECK -/

@[simp] theorem check_regs : (check s).regs = s.regs := by unfold check; split <;> rfl
@[simp] theorem check_pc : (check s).pc = s.pc := by unfold check; split <;> rfl
@[simp] theorem check_prev : (check s).prev = s.prev := by unfold check; split <;> rfl
@[simp] theorem check_domain : (check s).domain = s.domain := by unfold check; split <;> rfl
@[simp] theorem check_counters : (check s).counters = s.counters := by unfold check; split <;> rfl
@[simp] theorem check_timer0 : (check s).timer0 = s.timer0 := by unfold check; split <;> rfl
@[simp] theorem check_timer1 : (check s).timer1 = s.timer1 := by unfold check; split <;> rfl
@[simp] theorem check_dram : (check s).dram = s.dram := by unfold check; split <;> rfl
@[simp] theorem check_info : (check s).info = s.info := by unfold check; split <;> rfl
@[simp] theorem check_trace : (check s).trace = s.trace := by unfold check; split <;> rfl
@[simp] theorem check_timer (k : TimerId) : (check s).timer k = s.timer k := by cases k <;> simp

end Sys2Proof.Machine
end

