-- ==== Sys2Proof/Laws/Ops.lean ====
section
/-! SUPPORT. What the shared operations do, said once: a register write, a raised fault, the selector tables, the tick. -/

namespace Sys2Proof.Machine

/-! ### Frames -/

theorem Kept.refl (s : State) : Kept s s :=
  ⟨rfl, rfl, rfl, rfl, rfl, rfl, rfl, rfl, fun _ => rfl⟩

theorem State.setReg_kept (s : State) (r : Fin 17) (v : Word) : Kept s (s.setReg r v) := by
  refine ⟨?_, ?_, ?_, ?_, ?_, ?_, ?_, ?_, fun a => ?_⟩ <;> simp

/-- A register write, as the frame predicate says it. -/
theorem State.setReg_writes (s : State) (r : Fin 17) (v : Word) : WritesReg s (s.setReg r v) r v where
  value := by rw [State.getReg_setReg]; simp
  zero := by rintro rfl; exact State.setReg_zero s v
  others := fun j hj => by
    rw [State.getReg_setReg]
    by_cases h : j = 0
    · simp [h]
    · simp [h, hj]
  pc := by simp
  trace := by simp
  kept := State.setReg_kept s r v

theorem State.setX_writes (s : State) (r : RegIdx) (v : Word) : WritesReg s (s.setX r v) (fieldReg r) v :=
  State.setReg_writes s (fieldReg r) v

@[simp] theorem State.setX_zero (s : State) (v : Word) : s.setX 0#4 v = s := rfl

/-! ### The word stored behind register 0: no accessor reads it, every update carries it along -/

section StoredZero
variable (s : State) (w : Word)

@[simp] theorem State.withStoredZero_getReg (i : Fin 17) : (s.withStoredZero w).getReg i = s.getReg i := by
  by_cases h : i = 0
  · simp [h]
  · have : (0 : Nat) ≠ i.val := fun h' => h (Fin.ext h'.symm)
    simp [State.getReg, h, State.withStoredZero, this]

@[simp] theorem State.withStoredZero_x (r : RegIdx) : (s.withStoredZero w).x r = s.x r :=
  State.withStoredZero_getReg s w (fieldReg r)

@[simp] theorem State.withStoredZero_lr : (s.withStoredZero w).lr = s.lr := State.withStoredZero_getReg s w lrIdx

@[simp] theorem State.withStoredZero_latch : (s.withStoredZero w).latch = s.latch := by simp [State.latch]

@[simp] theorem State.withStoredZero_timer (k : TimerId) : (s.withStoredZero w).timer k = s.timer k := by
  cases k <;> rfl

theorem State.setReg_withStoredZero (i : Fin 17) (v : Word) :
    (s.withStoredZero w).setReg i v = (s.setReg i v).withStoredZero w := by
  by_cases h : i = 0
  · simp [h]
  · have h0 : (0 : Nat) ≠ i.val := fun h' => h (Fin.ext h'.symm)
    simp only [State.setReg, h, if_false, State.withStoredZero]
    rw [Vector.set_comm _ _ h0]

theorem State.setX_withStoredZero (r : RegIdx) (v : Word) :
    (s.withStoredZero w).setX r v = (s.setX r v).withStoredZero w := State.setReg_withStoredZero s w (fieldReg r) v

theorem State.setLr_withStoredZero (v : Word) : (s.withStoredZero w).setLr v = (s.setLr v).withStoredZero w :=
  State.setReg_withStoredZero s w lrIdx v

theorem State.setTimer_withStoredZero (t : TimerId) (r : Timer) :
    (s.withStoredZero w).setTimer t r = (s.setTimer t r).withStoredZero w := by
  cases t <;> rfl

end StoredZero

/-! ### Raising a fault -/

/-- A raised fault changes the status alone. -/
theorem raise_eq (i : Instr) (code : FaultCode) (info : FaultInfo) (s : State) :
    raise i code info s = .next { s with
      status := faultedAt (s.pc - BitVec.ofNat 32 i.width.bytes) code i.op i.width info } := rfl

/-! ### Selector tables -/

theorem edgeFn?_eq_none_iff (fn : BitVec 3) : edgeFn? fn = none ↔ fn = 7#3 := by revert fn; decide

theorem jmpcFn?_eq_none_iff (fn : BitVec 4) : jmpcFn? fn = none ↔ 8 ≤ fn.toNat := by revert fn; decide

/-! ### The target of a relative jump -/

theorem State.target_eq {n : Nat} (s : State) (off : BitVec n) :
    s.target off = BitVec.ofInt 32 ((s.pc.toNat : Int) + off.toInt) := by
  have h1 : off.signExtend 32 = BitVec.ofInt 32 off.toInt := rfl
  rw [State.target, h1, BitVec.ofInt_add]
  congr 1
  apply BitVec.eq_of_toNat_eq
  simp

/-! ### The tick -/

/-- All that one timer's tick can do: nothing, count, or clear the count and then redirect or warn. -/
theorem tickTimer_cases (t : TimerId) (s : State) :
    ((s.timer t).enabled = false ∧ tickTimer t s = s) ∨
    ((s.timer t).enabled = true ∧ (s.timer t).count + 1#32 < (s.timer t).threshold ∧
      tickTimer t s = s.setTimer t { s.timer t with count := (s.timer t).count + 1#32 }) ∨
    ((s.timer t).enabled = true ∧ (s.timer t).threshold ≤ (s.timer t).count + 1#32 ∧ (s.timer t).targetPc ≠ 0#32 ∧
      tickTimer t s = ((s.setTimer t { s.timer t with count := 0#32 }).setPc (s.timer t).targetPc).emit
        (.timerFired t (s.timer t).targetPc)) ∨
    ((s.timer t).enabled = true ∧ (s.timer t).threshold ≤ (s.timer t).count + 1#32 ∧ (s.timer t).targetPc = 0#32 ∧
      tickTimer t s = (s.setTimer t { s.timer t with count := 0#32 }).warn (.timerNoTarget t)) := by
  by_cases he : (s.timer t).enabled = true
  · by_cases hc : (s.timer t).threshold ≤ (s.timer t).count + 1#32
    · by_cases ht : (s.timer t).targetPc = 0#32
      · exact .inr (.inr (.inr ⟨he, hc, ht, by simp [tickTimer, he, hc, ht]⟩))
      · exact .inr (.inr (.inl ⟨he, hc, ht, by simp [tickTimer, he, hc, ht]⟩))
    · exact .inr (.inl ⟨he, by simpa using hc, by simp [tickTimer, he, hc]⟩)
  · exact .inl ⟨by simpa using he, by simp [tickTimer, he]⟩

end Sys2Proof.Machine
end

