-- ==== Sys2Proof/Laws/Exec.lean ====
section
/-! SUPPORT. What an instruction can do, said once over all of them, and what a step can do, said once. -/

namespace Sys2Proof.Machine

/-- What every instruction that raised no fatal fault leaves: its frame. `items` is what it added to the trace. -/
structure Completed (s t : State) (items : List TraceItem) : Prop where
  status : t.status = s.status
  prev : t.prev = s.prev
  counters : t.counters = s.counters
  dram : t.dram = s.dram
  info : t.info = s.info
  threshold : ∀ k, (t.timer k).threshold = (s.timer k).threshold
  targetPc : ∀ k, (t.timer k).targetPc = (s.timer k).targetPc
  count : ∀ k, (t.timer k).count = (s.timer k).count ∨ (t.timer k).count = 0#32
  trace : t.trace = s.trace ++ items
  short : items.length ≤ 1

/-- What a fatal fault raised by instruction `i` leaves: the status alone changed, with a code of the execute stage whose
pc advance is the instruction's width. -/
def Raised (i : Instr) (s t : State) : Prop :=
  ∃ code info, t = { s with status := faultedAt (s.pc - BitVec.ofNat 32 i.width.bytes) code i.op i.width info } ∧
    code.atFetch = false ∧ code.pcAdvance = i.width.bytes

section Completed
variable (s : State)

theorem completed_refl : Completed s s [] := by
  constructor <;> simp

theorem completed_setPc (v : Word) : Completed s (s.setPc v) [] := by
  constructor <;> simp

theorem completed_setReg (r : Fin 17) (v : Word) : Completed s (s.setReg r v) [] := by
  constructor <;> simp

theorem completed_emit (e : Event) : Completed s (s.emit e) [.event e] := by
  constructor <;> simp

theorem completed_warn (w : Warning) : Completed s (s.warn w) [.warning w] := by
  constructor <;> simp

theorem completed_setTimer (t : TimerId) (r : Timer) (h1 : r.threshold = (s.timer t).threshold)
    (h2 : r.targetPc = (s.timer t).targetPc) (h3 : r.count = (s.timer t).count ∨ r.count = 0#32) :
    Completed s (s.setTimer t r) [] := by
  constructor <;> try simp
  · intro k; rw [State.timer_setTimer]; split <;> simp_all
  · intro k; rw [State.timer_setTimer]; split <;> simp_all
  · intro k; rw [State.timer_setTimer]; split <;> simp_all

variable {s}

/-- Two effects in a row, the second without a trace item. -/
theorem Completed.then {t u : State} {items : List TraceItem} (h1 : Completed s t items) (h2 : Completed t u []) :
    Completed s u items where
  status := h2.status.trans h1.status
  prev := h2.prev.trans h1.prev
  counters := h2.counters.trans h1.counters
  dram := h2.dram.trans h1.dram
  info := h2.info.trans h1.info
  threshold := fun k => (h2.threshold k).trans (h1.threshold k)
  targetPc := fun k => (h2.targetPc k).trans (h1.targetPc k)
  count := fun k => by
    rcases h2.count k with h | h
    · rcases h1.count k with h' | h'
      · exact .inl (h.trans h')
      · exact .inr (h.trans h')
    · exact .inr h
  trace := by rw [h2.trace, h1.trace, List.append_nil]
  short := h1.short

theorem completed_domain (dom : BitVec 8) {t : State} {items : List TraceItem}
    (h : Completed { s with domain := dom } t items) : Completed s t items where
  status := h.status
  prev := h.prev
  counters := h.counters
  dram := h.dram
  info := h.info
  threshold := fun k => (h.threshold k).trans (by cases k <;> rfl)
  targetPc := fun k => (h.targetPc k).trans (by cases k <;> rfl)
  count := fun k => by have := h.count k; cases k <;> exact this
  trace := h.trace
  short := h.short

end Completed

theorem raised_of_raise {i : Instr} {code : FaultCode} {info : FaultInfo} {s : State} (h1 : code.atFetch = false)
    (h2 : code.pcAdvance = i.width.bytes) : ∃ t, raise i code info s = .next t ∧ Raised i s t :=
  ⟨_, rfl, code, info, rfl, h1, h2⟩

/-- Every instruction answers a next state, and it either completed or raised a fatal fault. -/
theorem exec_answers (i : Instr) (s : State) :
    ∃ t, exec i s = .next t ∧ (Raised i s t ∨ ∃ items, Completed s t items) := by
  have done : ∀ {t items}, Completed s t items → ∃ u, Host.Outcome.next t = (.next u : Host.Outcome State Fault Refusal) ∧
      (Raised i s u ∨ ∃ items, Completed s u items) := fun h => ⟨_, rfl, .inr ⟨_, h⟩⟩
  cases i with
  | trigger => exact done (completed_emit s _)
  | ret => exact done ((completed_setPc s _).then (completed_setReg _ _ _))
  | timerSet tid fn =>
    simp only [exec, execTimerSet]
    split
    · exact done (completed_setTimer s _ _ rfl rfl (.inr rfl))
    · split
      · exact done (completed_setTimer s _ _ rfl rfl (.inl rfl))
      · split
        · exact done (completed_setTimer s _ _ rfl rfl (.inl rfl))
        · exact done (completed_warn s _)
  | triggerPos pos => exact done (completed_emit s _)
  | jmp off8 => exact done (completed_setPc s _)
  | mov rd rs => exact done (completed_setReg s _ _)
  | bl off10 => exact done ((completed_setReg s _ _).then (completed_setPc _ _))
  | domainSet dom =>
    simp only [exec, execDomainSet]
    split
    · exact done (completed_domain dom (completed_emit _ _))
    · exact done (completed_domain dom (completed_warn _ _))
  | display id =>
    simp only [exec, execDisplay]
    split
    · exact done (completed_emit s _)
    · exact done (completed_warn s _)
  | exec id =>
    simp only [exec, execExec]
    split
    · exact done (completed_emit s _)
    · exact (raised_of_raise rfl rfl).imp fun _ h => ⟨h.1, .inl h.2⟩
  | edgeDetect rd rs fn =>
    simp only [exec, execEdgeDetect]
    split
    · exact done (completed_setReg s _ _)
    · exact (raised_of_raise rfl rfl).imp fun _ h => ⟨h.1, .inl h.2⟩
  | jmpc fn rs1 rs2 off8 =>
    simp only [exec, execJmpc]
    split
    · split
      · exact done (completed_setPc s _)
      · exact done (completed_refl s)
    · exact (raised_of_raise rfl rfl).imp fun _ h => ⟨h.1, .inl h.2⟩
  | and rd rs1 rs2 => exact done (completed_setReg s _ _)
  | or rd rs1 rs2 => exact done (completed_setReg s _ _)
  | xor rd rs1 rs2 => exact done (completed_setReg s _ _)
  | redand rd rs1 rs2 => exact done (completed_setReg s _ _)
  | redor rd rs1 rs2 => exact done (completed_setReg s _ _)
  | redxor rd rs1 rs2 => exact done (completed_setReg s _ _)
  | concat rd rs1 rs2 => exact done (completed_setReg s _ _)
  | isunk rd rs1 rs2 => exact done (completed_setReg s _ _)
  | add rd rs1 rs2 => exact done (completed_setReg s _ _)
  | sub rd rs1 rs2 => exact done (completed_setReg s _ _)
  | bitSlice rd rs start stop =>
    simp only [exec, execBitSlice]
    split
    · exact (raised_of_raise rfl rfl).imp fun _ h => ⟨h.1, .inl h.2⟩
    · exact done (completed_setReg s _ _)
  | load rd saddr =>
    simp only [exec, execLoad]
    split
    · exact done (completed_setReg s _ _)
    · exact (raised_of_raise rfl rfl).imp fun _ h => ⟨h.1, .inl h.2⟩
  | movi rsv rd imm =>
    simp only [exec, execMovi]
    split
    · exact (raised_of_raise rfl rfl).imp fun _ h => ⟨h.1, .inl h.2⟩
    · exact done (completed_setReg s _ _)

/-! ### The step -/

theorem complete_of_running (pre : Vector Word 16) {t : State} (h : t.status = .running) :
    complete pre t = check (timerTick (snapshot pre t)) := by
  simp [complete, h]

theorem complete_of_not_running (pre : Vector Word 16) {t : State} (h : t.status ≠ .running) : complete pre t = t := by
  cases hs : t.status with
  | running => exact absurd hs h
  | halted => simp [complete, hs]
  | faulted rec => simp [complete, hs]

/-- All that a step of a running state with a legal geometry can do. -/
theorem step_cases {s : State} (hr : s.status = .running) (hl : s.dram.legal = true) :
    (∃ r, fetch s = .reject r ∧ step s = .next (s.takeFault (FetchReject.record r s.pc))) ∨
    (∃ fn, fetch s = .invalidArithFunc fn ∧ step s = .next (arithFault fn s)) ∨
    (∃ i t, fetch s = .instr i ∧ exec i (s.advance i.width) = .next t ∧ Raised i (s.advance i.width) t ∧
      step s = .next t) ∨
    (∃ i t items, fetch s = .instr i ∧ exec i (s.advance i.width) = .next t ∧ Completed (s.advance i.width) t items ∧
      step s = .next (check (timerTick (snapshot s.latch t)))) := by
  have hstep : step s = cycle s := by simp [step, runStep, hr, hl]
  cases hf : fetch s with
  | reject r => exact .inl ⟨r, rfl, by simp [hstep, cycle, hf]⟩
  | invalidArithFunc fn => exact .inr (.inl ⟨fn, rfl, by simp [hstep, cycle, hf]⟩)
  | instr i =>
    obtain ⟨t, he, hR | ⟨items, hC⟩⟩ := exec_answers i (s.advance i.width)
    · refine .inr (.inr (.inl ⟨i, t, rfl, he, hR, ?_⟩))
      obtain ⟨code, info, ht, -, -⟩ := hR
      have : t.status ≠ .running := by rw [ht]; simp [faultedAt]
      simp [hstep, cycle, hf, he, finish, complete_of_not_running _ this]
    · refine .inr (.inr (.inr ⟨i, t, items, rfl, he, hC, ?_⟩))
      have : t.status = .running := hC.status.trans hr
      simp [hstep, cycle, hf, he, finish, complete_of_running _ this]

theorem step_of_not_running {s : State} (h : s.status ≠ .running) : step s = .next s := by
  cases hs : s.status with
  | running => exact absurd hs h
  | halted => simp [step, runStep, hs]
  | faulted rec => simp [step, runStep, hs]

theorem step_of_illegal {s : State} (hr : s.status = .running) (hl : s.dram.legal = false) :
    step s = .refused .illegalLaunch := by
  simp [step, runStep, hr, hl]

/-! ### The frame of the tick -/

section Tick
variable (t : TimerId) (s : State)

@[simp] theorem tickTimer_regs : (tickTimer t s).regs = s.regs := by
  rcases tickTimer_cases t s with ⟨_, h⟩ | ⟨_, _, h⟩ | ⟨_, _, _, h⟩ | ⟨_, _, _, h⟩ <;> simp [h]
@[simp] theorem tickTimer_prev : (tickTimer t s).prev = s.prev := by
  rcases tickTimer_cases t s with ⟨_, h⟩ | ⟨_, _, h⟩ | ⟨_, _, _, h⟩ | ⟨_, _, _, h⟩ <;> simp [h]
@[simp] theorem tickTimer_domain : (tickTimer t s).domain = s.domain := by
  rcases tickTimer_cases t s with ⟨_, h⟩ | ⟨_, _, h⟩ | ⟨_, _, _, h⟩ | ⟨_, _, _, h⟩ <;> simp [h]
@[simp] theorem tickTimer_counters : (tickTimer t s).counters = s.counters := by
  rcases tickTimer_cases t s with ⟨_, h⟩ | ⟨_, _, h⟩ | ⟨_, _, _, h⟩ | ⟨_, _, _, h⟩ <;> simp [h]
@[simp] theorem tickTimer_status : (tickTimer t s).status = s.status := by
  rcases tickTimer_cases t s with ⟨_, h⟩ | ⟨_, _, h⟩ | ⟨_, _, _, h⟩ | ⟨_, _, _, h⟩ <;> simp [h]
@[simp] theorem tickTimer_dram : (tickTimer t s).dram = s.dram := by
  rcases tickTimer_cases t s with ⟨_, h⟩ | ⟨_, _, h⟩ | ⟨_, _, _, h⟩ | ⟨_, _, _, h⟩ <;> simp [h]
@[simp] theorem tickTimer_info : (tickTimer t s).info = s.info := by
  rcases tickTimer_cases t s with ⟨_, h⟩ | ⟨_, _, h⟩ | ⟨_, _, _, h⟩ | ⟨_, _, _, h⟩ <;> simp [h]

/-- A timer's tick leaves the other timer alone. -/
theorem tickTimer_other {k : TimerId} (hk : k ≠ t) : (tickTimer t s).timer k = s.timer k := by
  rcases tickTimer_cases t s with ⟨_, h⟩ | ⟨_, _, h⟩ | ⟨_, _, _, h⟩ | ⟨_, _, _, h⟩ <;> rw [h]
  · simp [State.timer_setTimer, hk]
  · simp [State.timer_setTimer, hk]
  · simp [State.timer_setTimer, hk]

/-- What a timer's tick leaves in that timer, a function of that timer alone. -/
def tickedTimer (r : Timer) : Timer :=
  if r.enabled then if r.threshold ≤ r.count + 1#32 then { r with count := 0#32 } else { r with count := r.count + 1#32 }
  else r

theorem tickTimer_self : (tickTimer t s).timer t = tickedTimer (s.timer t) := by
  rcases tickTimer_cases t s with ⟨h1, h⟩ | ⟨h1, h2, h⟩ | ⟨h1, h2, _, h⟩ | ⟨h1, h2, _, h⟩ <;> rw [h]
  · simp [tickedTimer, h1]
  · simp [tickedTimer, h1, State.timer_setTimer, BitVec.not_le.mpr h2]
  · simp [tickedTimer, h1, h2, State.timer_setTimer]
  · simp [tickedTimer, h1, h2, State.timer_setTimer]

/-- Each timer after a tick of both, a function of that timer alone. -/
theorem timerTick_timer (k : TimerId) : (timerTick s).timer k = tickedTimer (s.timer k) := by
  unfold timerTick
  cases k
  · rw [tickTimer_other _ _ (by decide), tickTimer_self]
  · rw [tickTimer_self, tickTimer_other _ _ (by decide)]

@[simp] theorem timerTick_regs : (timerTick s).regs = s.regs := by simp [timerTick]
@[simp] theorem timerTick_prev : (timerTick s).prev = s.prev := by simp [timerTick]
@[simp] theorem timerTick_domain : (timerTick s).domain = s.domain := by simp [timerTick]
@[simp] theorem timerTick_counters : (timerTick s).counters = s.counters := by simp [timerTick]
@[simp] theorem timerTick_status : (timerTick s).status = s.status := by simp [timerTick]
@[simp] theorem timerTick_dram : (timerTick s).dram = s.dram := by simp [timerTick]
@[simp] theorem timerTick_info : (timerTick s).info = s.info := by simp [timerTick]

/-- What one timer adds to the trace. -/
def tickItems (t : TimerId) (r : Timer) : List TraceItem :=
  if r.enabled then
    if r.threshold ≤ r.count + 1#32 then
      if r.targetPc = 0#32 then [.warning (.timerNoTarget t)] else [.event (.timerFired t r.targetPc)]
    else []
  else []

theorem tickItems_length (t : TimerId) (r : Timer) : (tickItems t r).length ≤ 1 := by
  unfold tickItems; split_ifs <;> simp

theorem tickTimer_trace : (tickTimer t s).trace = s.trace ++ tickItems t (s.timer t) := by
  rcases tickTimer_cases t s with ⟨h1, h⟩ | ⟨h1, h2, h⟩ | ⟨h1, h2, h3, h⟩ | ⟨h1, h2, h3, h⟩ <;> rw [h]
  · simp [tickItems, h1]
  · simp [tickItems, BitVec.not_le.mpr h2]
  · simp [tickItems, h1, h2, h3]
  · simp [tickItems, h1, h2, h3]

theorem timerTick_trace : (timerTick s).trace = s.trace ++ tickItems .t0 s.timer0 ++ tickItems .t1 s.timer1 := by
  have h : (tickTimer .t0 s).timer .t1 = s.timer1 := tickTimer_other _ _ (by decide)
  simp only [timerTick, tickTimer_trace, h, State.timer_t0]

/-- The pc after one timer's tick. -/
def tickPc (r : Timer) (pc : Word) : Word :=
  if r.enabled ∧ r.threshold ≤ r.count + 1#32 ∧ r.targetPc ≠ 0#32 then r.targetPc else pc

theorem tickTimer_pc : (tickTimer t s).pc = tickPc (s.timer t) s.pc := by
  rcases tickTimer_cases t s with ⟨h1, h⟩ | ⟨h1, h2, h⟩ | ⟨h1, h2, h3, h⟩ | ⟨h1, h2, h3, h⟩ <;> rw [h]
  · simp [tickPc, h1]
  · simp [tickPc, BitVec.not_le.mpr h2]
  · simp [tickPc, h1, h2, h3]
  · simp [tickPc, h3]

theorem timerTick_pc : (timerTick s).pc = tickPc s.timer1 (tickPc s.timer0 s.pc) := by
  have h : (tickTimer .t0 s).timer .t1 = s.timer1 := tickTimer_other _ _ (by decide)
  simp only [timerTick, tickTimer_pc, h, State.timer_t0]

/-- A disabled timer's tick does nothing. -/
theorem tickTimer_of_disabled {t : TimerId} {s : State} (h : (s.timer t).enabled = false) : tickTimer t s = s := by
  simp [tickTimer, h]

theorem tickPc_of_redirects {r : Timer} (pc : Word) (h : r.redirects) : tickPc r pc = r.targetPc := by
  rw [tickPc, if_pos ⟨h.1.1, h.1.2, h.2⟩]

theorem tickPc_of_not_redirects {r : Timer} (pc : Word) (h : ¬ r.redirects) : tickPc r pc = pc := by
  rw [tickPc, if_neg]
  rintro ⟨h1, h2, h3⟩
  exact h ⟨⟨h1, h2⟩, h3⟩

theorem tickTimer_withStoredZero (w : Word) :
    tickTimer t (s.withStoredZero w) = (tickTimer t s).withStoredZero w := by
  unfold tickTimer
  simp only [State.withStoredZero_timer, State.setTimer_withStoredZero]
  split_ifs <;> rfl

end Tick

end Sys2Proof.Machine
end

