-- ==== Sys2Proof/Laws/PerInstr.lean ====
section
/-! SUPPORT. The lemmas that are said of every instruction as syntax. -/

namespace Sys2Proof.Laws.EncodeShape

/-- The encoder writes as many bytes as the instruction is wide, and its opcode in the first byte's high nibble
(spec/30_encoding.md R80, R81, R109). -/
def Statement (i : Instr) : Prop :=
  (encode i).length = i.width.bytes ∧ ∃ b rest, encode i = b :: rest ∧ Layout.firstByteOp.get b = i.op

theorem of_word2 {i : Instr} {v : BitVec 16} (he : encode i = bytes2 v) (hw : i.width = .w2)
    (h : Layout.op2.get v = i.op) : Statement i :=
  ⟨by rw [he, hw]; rfl, _, _, he, by rw [firstByteOp_of_word2, h]⟩

theorem of_word4 {i : Instr} {v : BitVec 32} (he : encode i = bytes4 v) (hw : i.width = .w4)
    (h : Layout.op4.get v = i.op) : Statement i :=
  ⟨by rw [he, hw]; rfl, _, _, he, by rw [firstByteOp_of_word4, h]⟩

theorem of_word8 {i : Instr} {v : BitVec 64} (he : encode i = bytes8 v) (hw : i.width = .w8)
    (h : Layout.op8.get v = i.op) : Statement i :=
  ⟨by rw [he, hw]; rfl, _, _, he, by rw [firstByteOp_of_word8, h]⟩

theorem of_arith (f : ArithFn) (rd rs1 rs2 : RegIdx) : Statement (f.instr rd rs1 rs2) := by
  refine of_word4 (ArithFn.encode_instr f rd rs1 rs2) (ArithFn.width_instr f rd rs1 rs2) ?_
  rw [Instr.op, ArithFn.opClass_instr, encodeArith]
  simp (disch := decide) only [Field.get_or, Field.get_put, Field.get_put_apart, BitVec.or_zero]

theorem trigger : Statement .trigger := ⟨rfl, _, _, rfl, rfl⟩

theorem ret : Statement .ret := ⟨rfl, _, _, rfl, rfl⟩

theorem timerSet (tid : TimerId) (fn : BitVec 2) : Statement (.timerSet tid fn) := by
  refine ⟨rfl, _, _, rfl, ?_⟩
  rw [firstByteOp_of_word1]
  simp (disch := decide) only [Field.get_or, Field.get_put, Field.get_put_apart, BitVec.or_zero]

theorem triggerPos (pos : BitVec 7) : Statement (.triggerPos pos) :=
  of_word2 rfl rfl (by simp (disch := decide) only [Field.get_or, Field.get_put, Field.get_put_apart, BitVec.or_zero])

theorem jmp (off8 : BitVec 8) : Statement (.jmp off8) :=
  of_word2 rfl rfl (by simp (disch := decide) only [Field.get_or, Field.get_put, Field.get_put_apart, BitVec.or_zero])

theorem mov (rd rs : RegIdx) : Statement (.mov rd rs) :=
  of_word2 rfl rfl (by simp (disch := decide) only [Field.get_or, Field.get_put, Field.get_put_apart, BitVec.or_zero])

theorem bl (off10 : BitVec 10) : Statement (.bl off10) :=
  of_word2 rfl rfl (by simp (disch := decide) only [Field.get_or, Field.get_put, Field.get_put_apart, BitVec.or_zero])

theorem domainSet (dom : BitVec 8) : Statement (.domainSet dom) :=
  of_word2 rfl rfl (by simp (disch := decide) only [Field.get_or, Field.get_put, Field.get_put_apart, BitVec.or_zero])

theorem display (id : BitVec 10) : Statement (.display id) :=
  of_word2 rfl rfl (by simp (disch := decide) only [Field.get_or, Field.get_put, Field.get_put_apart, BitVec.or_zero])

theorem exec (id : BitVec 10) : Statement (.exec id) :=
  of_word2 rfl rfl (by simp (disch := decide) only [Field.get_or, Field.get_put, Field.get_put_apart, BitVec.or_zero])

theorem edgeDetect (rd rs : RegIdx) (fn : BitVec 3) : Statement (.edgeDetect rd rs fn) :=
  of_word2 rfl rfl (by simp (disch := decide) only [Field.get_or, Field.get_put, Field.get_put_apart, BitVec.or_zero])

theorem jmpc (fn : BitVec 4) (rs1 rs2 : RegIdx) (off8 : BitVec 8) : Statement (.jmpc fn rs1 rs2 off8) :=
  of_word4 rfl rfl (by simp (disch := decide) only [Field.get_or, Field.get_put, Field.get_put_apart, BitVec.or_zero])

theorem and (rd rs1 rs2 : RegIdx) : Statement (.and rd rs1 rs2) := of_arith .and rd rs1 rs2

theorem or (rd rs1 rs2 : RegIdx) : Statement (.or rd rs1 rs2) := of_arith .or rd rs1 rs2

theorem xor (rd rs1 rs2 : RegIdx) : Statement (.xor rd rs1 rs2) := of_arith .xor rd rs1 rs2

theorem redand (rd rs1 rs2 : RegIdx) : Statement (.redand rd rs1 rs2) := of_arith .redand rd rs1 rs2

theorem redor (rd rs1 rs2 : RegIdx) : Statement (.redor rd rs1 rs2) := of_arith .redor rd rs1 rs2

theorem redxor (rd rs1 rs2 : RegIdx) : Statement (.redxor rd rs1 rs2) := of_arith .redxor rd rs1 rs2

theorem concat (rd rs1 rs2 : RegIdx) : Statement (.concat rd rs1 rs2) := of_arith .concat rd rs1 rs2

theorem isunk (rd rs1 rs2 : RegIdx) : Statement (.isunk rd rs1 rs2) := of_arith .isunk rd rs1 rs2

theorem add (rd rs1 rs2 : RegIdx) : Statement (.add rd rs1 rs2) := of_arith .add rd rs1 rs2

theorem sub (rd rs1 rs2 : RegIdx) : Statement (.sub rd rs1 rs2) := of_arith .sub rd rs1 rs2

theorem bitSlice (rd rs : RegIdx) (start stop : BitVec 5) : Statement (.bitSlice rd rs start stop) :=
  of_word4 rfl rfl (by simp (disch := decide) only [Field.get_or, Field.get_put, Field.get_put_apart, BitVec.or_zero])

theorem load (rd : RegIdx) (saddr : BitVec 24) : Statement (.load rd saddr) :=
  of_word4 rfl rfl (by simp (disch := decide) only [Field.get_or, Field.get_put, Field.get_put_apart, BitVec.or_zero])

theorem movi (rsv : BitVec 1) (rd : RegIdx) (imm : BitVec 32) : Statement (.movi rsv rd imm) :=
  of_word8 rfl rfl (by simp (disch := decide) only [Field.get_or, Field.get_put, Field.get_put_apart, BitVec.or_zero])

end Sys2Proof.Laws.EncodeShape
end

