-- ==== Sys2Proof/Tests/Slice0.lean ====
section
/-! SUPPORT. The model's own tests. The words and the expected values are those of spec/95_test_vectors.md (its ids stand
in the names and comments) or are written out from the encodings of spec/30_encoding.md. Then, for every statement that
has hypotheses, a witness that meets them. -/

namespace Sys2Proof.Tests

open Sys2Proof.Machine

/-! ## Well-formedness and legality: an ill-formed term for each check -/

/-- A MOVI with its reserved bit set and 25 zero low immediate bits is the word of a MOV (R110). -/
theorem test_wellFormed_refuses_movi_that_is_a_mov : Instr.wellFormed (.movi 1 1 0xFE000000) = false := by decide
theorem test_wellFormed_accepts_movi_rsv : Instr.wellFormed (.movi 1 1 0x01000000) = true := by decide
theorem test_legal_refuses_movi_rsv : Instr.legal (.movi 1 1 5) = false := by decide
theorem test_legal_refuses_edge_7 : Instr.legal (.edgeDetect 2 1 7) = false := by decide
theorem test_legal_refuses_jmpc_8 : Instr.legal (.jmpc 8 1 2 16) = false := by decide
theorem test_legal_refuses_slice_7_4 : Instr.legal (.bitSlice 2 1 7 4) = false := by decide

/-! ## Decoding: each constructor from a word of the spec -/

theorem test_decode_width1 :
    decode [0x0F] = .instr .trigger ∧ decode [0x1F] = .instr .ret ∧ decode [0x2C] = .instr (.timerSet .t1 2) ∧
    decode [0x22] = .instr (.timerSet .t0 1) := by decide

/-- V2-2, V2-4, V2-8, V2-15, V2-17, V2-20, V2-21, V2-25. -/
theorem test_decode_width2 :
    decode [0x3F, 0xE0] = .instr (.triggerPos 127) ∧ decode [0x4F, 0xE0] = .instr (.jmp 0xFE) ∧
    decode [0x58, 0x90, 0, 0, 0, 0, 0, 0] = .instr (.mov 1 2) ∧ decode [0x67, 0xFC] = .instr (.bl 511) ∧
    decode [0x70, 0x70] = .instr (.domainSet 7) ∧ decode [0x8F, 0xFC] = .instr (.display 1023) ∧
    decode [0x90, 0x24] = .instr (.exec 9) ∧ decode [0xA2, 0x06] = .instr (.edgeDetect 2 0 3) := by decide

/-- V4-36, V4-63, V4-69. -/
theorem test_decode_width4 :
    decode [0xB1, 0x10, 0xF8, 0x00] = .instr (.jmpc 1 1 0 0xF8) ∧
    decode [0xD2, 0x14, 0x5C, 0x00] = .instr (.bitSlice 2 1 8 23) ∧
    decode [0xE1, 0xFF, 0xFF, 0xFF] = .instr (.load 1 0xFFFFFF) := by decide

/-- V4-37 to V4-46, V4-56. -/
theorem test_decode_arith :
    decode [0xC0, 0x31, 0x20, 0x00] = .instr (.and 3 1 2) ∧ decode [0xC1, 0x31, 0x20, 0x00] = .instr (.or 3 1 2) ∧
    decode [0xC2, 0x31, 0x20, 0x00] = .instr (.xor 3 1 2) ∧ decode [0xC3, 0x31, 0x20, 0x00] = .instr (.redand 3 1 2) ∧
    decode [0xC4, 0x31, 0x20, 0x00] = .instr (.redor 3 1 2) ∧ decode [0xC5, 0x31, 0x20, 0x00] = .instr (.redxor 3 1 2) ∧
    decode [0xC6, 0x31, 0x20, 0x00] = .instr (.concat 3 1 2) ∧ decode [0xC7, 0x31, 0x20, 0x00] = .instr (.isunk 3 1 2) ∧
    decode [0xC8, 0x31, 0x20, 0x00] = .instr (.add 3 1 2) ∧ decode [0xC9, 0x31, 0x20, 0x00] = .instr (.sub 3 1 2) ∧
    decode [0xCA, 0x31, 0x20, 0x00] = .invalidArithFunc 10 := by decide

/-- V8-1, V8-2, V8-5, V8-6, and S2's two branches of the move family. -/
theorem test_decode_move_family :
    decode [0x50, 0x80, 0x00, 0x00, 0x02, 0x80, 0x00, 0x00] = .instr (.movi 0 1 5) ∧
    decode [0x57, 0xFF, 0xFF, 0xFF, 0xFF, 0x80, 0x00, 0x00] = .instr (.movi 0 15 0xFFFFFFFF) ∧
    decode [0x58, 0x80, 0x00, 0x00, 0x02, 0x80, 0x00, 0x00] = .instr (.movi 1 1 5) ∧
    decode [0x58, 0x00, 0x00, 0x00, 0x00, 0x00, 0x00, 0x01] = .instr (.movi 1 0 0) ∧
    decode [0x58, 0x80, 0x00, 0x00, 0x00, 0x00, 0x00, 0x00] = .instr (.mov 1 0) ∧
    decode [0x50, 0x00, 0x00, 0x00, 0x00, 0x00, 0x00, 0x00] = .instr (.movi 0 0 0) := by decide

theorem test_decode_rejects :
    decode [] = .reject .noByte ∧ decode [0xF0] = .reject (.unknownOpcode 15) ∧
    decode [0x40] = .reject (.truncated 4 .w2) ∧ decode [0xE1, 0x00, 0x00] = .reject (.truncated 14 .w4) ∧
    decode [0x58, 0x90, 0, 0, 0, 0, 0] = .reject (.moveWindow 5) := by decide

/-- The words of programs A, C and E of spec/95_test_vectors.md. -/
theorem test_encode :
    encode (.movi 0 1 0x12345678) = [0x50, 0x89, 0x1A, 0x2B, 0x3C, 0x00, 0x00, 0x00] ∧
    encode (.add 3 1 2) = [0xC8, 0x31, 0x20, 0x00] ∧ encode (.bl 1) = [0x60, 0x04] ∧
    encode (.triggerPos 100) = [0x3C, 0x80] ∧ encode (.edgeDetect 3 1 0) = [0xA3, 0x10] ∧
    encode (.timerSet .t1 2) = [0x2C] ∧ encode (.mov 0 5) = [0x58, 0x28] := by decide

theorem test_tableWord :
    decodeTableWord 8 0x24 = some (.timerSet .t0 2) ∧ decodeTableWord 16 0x5890 = some (.mov 1 2) ∧
    decodeTableWord 32 0xC8312000 = some (.add 3 1 2) ∧
    decodeTableWord 64 0x5080000002800000 = some (.movi 0 1 5) ∧ decodeTableWord 8 0xF0 = none := by decide

/-! ## One step -/

/-- The tables INFO_T of spec/95_test_vectors.md. -/
def infoT : Info := ⟨[5], [9], [7], [(0x000000, 0x0000CAFE), (0x000100, 0x000000F1), (0xFFFFFF, 0x12345678)]⟩

/-- The common set-up of spec/95_test_vectors.md: the bytes at A = 0x8000_0010, all else as at reset. -/
def atA (bytes : List Byte) : State :=
  { State.boot { info := infoT } (List.replicate 16 0 ++ bytes) with pc := 0x80000010 }

/-- The state after a step, where it answers one. -/
def after (s : State) : State :=
  match step s with
  | .next t => t
  | .fault _ => s
  | .refused _ => s

/-- The start value `prev[r] = v`. -/
def withPrev (s : State) (r : RegIdx) (v : Word) : State := { s with prev := s.prev.set r.toNat v (by omega) }

/-- The fault code, the pc and the address in the record after a step that faulted. -/
def faultOf (s : State) : Option (Nat × Word × Word) :=
  match (after s).status with
  | .faulted rec => some (rec.code.number, (after s).pc, rec.faultPc)
  | .running => none
  | .halted => none

/-- V1-1. -/
theorem test_trigger : (after (atA [0x00])).pc = 0x80000011 ∧ (after (atA [0x00])).trace = [.event .trigger] := by decide

/-- V1-3. -/
theorem test_ret : let t := after ((atA [0x10]).setLr 0x80000040)
    t.pc = 0x80000040 ∧ t.lr = 0 ∧ t.status = .running := by decide

/-- V1-4. -/
theorem test_ret_halts : (after (atA [0x10])).status = .halted ∧ (after (atA [0x10])).pc = 0 := by decide

/-- V1-6. -/
theorem test_timerSet_enable_fires_at_once :
    let t := after { atA [0x2C] with timer1 := ⟨0, false, 1, 0x80000100⟩ }
    t.timer1 = ⟨0, true, 1, 0x80000100⟩ ∧ t.pc = 0x80000100 ∧ t.trace = [.event (.timerFired .t1 0x80000100)] := by decide

/-- V1-7 and V1-8. -/
theorem test_timerSet_disable_and_reset :
    (after { atA [0x22] with timer0 := ⟨2, true, 5, 0⟩ }).timer0 = ⟨2, false, 5, 0⟩ ∧
    (after { atA [0x20] with timer0 := ⟨4, true, 10, 0⟩ }).timer0 = ⟨1, true, 10, 0⟩ := by decide

/-- V2-2. -/
theorem test_triggerPos : (after (atA [0x3F, 0xE0])).trace = [.event (.triggerPos 127)] := by decide

/-- V2-4 and V2-6. -/
theorem test_jmp : (after (atA [0x4F, 0xE0])).pc = 0x80000010 ∧ (after (atA [0x48, 0x00])).pc = 0x7FFFFF92 := by decide

/-- V2-8. -/
theorem test_mov : let t := after ((atA [0x58, 0x90]).setX 2 0xDEADBEEF)
    t.x 1 = 0xDEADBEEF ∧ t.x 2 = 0xDEADBEEF ∧ t.pc = 0x80000012 := by decide

/-- V2-9. -/
theorem test_mov_to_zero : let t := after ((atA [0x58, 0x28]).setX 5 7)
    t.x 0 = 0 ∧ t.regs = ((atA []).setX 5 7).regs := by decide

/-- V2-14 and V2-16. -/
theorem test_bl : (after (atA [0x68, 0x00])).pc = 0x7FFFFE12 ∧
    (after ((atA [0x60, 0x20]).setLr 0x80000055)).lr = 0x80000012 := by decide

/-- V2-17 and V2-18. -/
theorem test_domainSet :
    (after (atA [0x70, 0x70])).domain = 7 ∧ (after (atA [0x70, 0x70])).trace = [.event (.domain 7)] ∧
    (after (atA [0x7F, 0xF0])).domain = 255 ∧ (after (atA [0x7F, 0xF0])).trace = [.warning (.unknownDomain 255)] := by decide

/-- V2-19 and V2-20. -/
theorem test_display : (after (atA [0x80, 0x14])).trace = [.event (.display 5)] ∧
    (after (atA [0x8F, 0xFC])).trace = [.warning (.unknownDisplay 1023)] := by decide

/-- V2-21 and V2-22. -/
theorem test_exec : (after (atA [0x90, 0x24])).trace = [.event (.exec 9)] ∧
    faultOf (atA [0x90, 0x28]) = some (6, 0x80000012, 0x80000010) := by decide

/-- V2-24 and the row "1, 0" of V2-28 to V2-55. -/
theorem test_edgeDetect : (after ((atA [0xA1, 0x10]).setX 1 1)).x 1 = 1 ∧
    (after (withPrev (((atA [0xA2, 0x12]).setX 1 2).setX 2 0x55) 1 5)).x 2 = 1 ∧
    (after (withPrev (((atA [0xA2, 0x1A]).setX 1 2).setX 2 0x55) 1 5)).x 2 = 0 := by decide

/-- V2-23. -/
theorem test_edgeDetect_7 : faultOf ((atA [0xA2, 0x1E]).setX 1 1) = some (8, 0x80000012, 0x80000010) := by decide

/-- V4-21 and V4-22: unsigned comparison. V4-29 and V4-30: edges. -/
theorem test_jmpc :
    (after (((atA [0xB2, 0x12, 0x10, 0x00]).setX 1 0xFFFFFFFF).setX 2 1)).pc = 0x80000024 ∧
    (after (((atA [0xB3, 0x12, 0x10, 0x00]).setX 1 0xFFFFFFFF).setX 2 1)).pc = 0x80000014 ∧
    (after (withPrev (atA [0xB7, 0x10, 0xFC, 0x00]) 1 1)).pc = 0x80000010 ∧
    (after (withPrev (atA [0xB6, 0x10, 0xFC, 0x00]) 1 1)).pc = 0x80000014 := by decide

/-- V4-33. -/
theorem test_jmpc_8 : faultOf ((atA [0xB8, 0x12, 0x10, 0x00]).setX 1 1) = some (9, 0x80000014, 0x80000010) := by decide

/-- ARITH_OP f, r3, r1, r2 with the operands of V4-37 to V4-46. -/
def arithX3 (first : Byte) : Word :=
  (after (((atA [first, 0x31, 0x20, 0x00]).setX 1 0xF0F01234).setX 2 0x0FF05678)).x 3

theorem test_and : arithX3 0xC0 = 0x00F01230 := by decide
theorem test_or : arithX3 0xC1 = 0xFFF0567C := by decide
theorem test_xor : arithX3 0xC2 = 0xFF00444C := by decide
/-- V4-40, V4-47. -/
theorem test_redand : arithX3 0xC3 = 0 ∧ (after ((atA [0xC3, 0x31, 0x00, 0x00]).setX 1 0xFFFFFFFF)).x 3 = 1 := by decide
/-- V4-41, V4-48. -/
theorem test_redor : arithX3 0xC4 = 1 ∧ (after ((atA [0xC4, 0x31, 0x00, 0x00]).setX 3 9)).x 3 = 0 := by decide
/-- V4-42, V4-49. -/
theorem test_redxor : arithX3 0xC5 = 1 ∧ (after ((atA [0xC5, 0x31, 0x00, 0x00]).setX 1 0x80000001)).x 3 = 0 := by decide
theorem test_concat : arithX3 0xC6 = 0x12345678 := by decide
theorem test_isunk : arithX3 0xC7 = 1 := by decide
theorem test_add_wraps : arithX3 0xC8 = 0x00E068AC := by decide
/-- V4-46, V4-54. -/
theorem test_sub_wraps : arithX3 0xC9 = 0xE0FFBBBC ∧ (after ((atA [0xC9, 0x11, 0x10, 0x00]).setX 1 77)).x 1 = 0 := by decide
/-- V4-57. -/
theorem test_arith_15 : faultOf (atA [0xCF, 0x01, 0x20, 0x00]) = some (7, 0x80000014, 0x80000010) := by decide

/-- V4-59 and V4-62. -/
theorem test_bitSlice : (after ((atA [0xD2, 0x12, 0x1C, 0x00]).setX 1 0xF0)).x 2 = 0xF ∧
    (after ((atA [0xD2, 0x1F, 0xFC, 0x00]).setX 1 0x80000000)).x 2 = 1 := by decide
/-- V4-65. -/
theorem test_bitSlice_reversed : faultOf ((atA [0xD2, 0x13, 0x90, 0x00]).setX 1 0xF0) = some (4, 0x80000014, 0x80000010) := by
  decide

/-- V4-68, V4-69. -/
theorem test_load : (after (atA [0xE1, 0x00, 0x01, 0x00])).x 1 = 0xF1 ∧
    (after (atA [0xE1, 0xFF, 0xFF, 0xFF])).x 1 = 0x12345678 := by decide
/-- V4-72. -/
theorem test_load_missing : faultOf (atA [0xE0, 0x00, 0x02, 0x00]) = some (5, 0x80000014, 0x80000010) := by decide

/-- V8-2, V8-4. -/
theorem test_movi : (after (atA [0x57, 0xFF, 0xFF, 0xFF, 0xFF, 0x80, 0x00, 0x00])).x 15 = 0xFFFFFFFF ∧
    (after (atA [0x50, 0x00, 0x00, 0x00, 0x04, 0x80, 0x00, 0x00])).x 0 = 0 := by decide
/-- V8-6. -/
theorem test_movi_rsv : faultOf (atA [0x58, 0x00, 0x00, 0x00, 0x00, 0x00, 0x00, 0x01]) = some (3, 0x80000018, 0x80000010) := by
  decide

/-! ## Fetch, timers and the snapshot -/

/-- K16, K18, K21. -/
theorem test_fetch_faults : faultOf (atA [0xF0]) = some (1, 0x80000010, 0x80000010) ∧
    faultOf { State.reset.withFetchWord 0 0 with pc := 0x80008000 } = some (2, 0x80008000, 0x80008000) ∧
    faultOf ({ atA [] with pc := 0x80007FFE }.withFetchWord 32 0xE1000000) = some (2, 0x80007FFE, 0x80007FFE) ∧
    faultOf ({ atA [] with pc := 0x80007FFA }.withFetchWord 16 0x5890) = some (2, 0x80007FFA, 0x80007FFA) := by decide

/-- K20 and K22: the last bytes of DRAM. -/
theorem test_fetch_at_the_end : (after { atA [] with pc := 0x80007FFF }).pc = 0x80008000 ∧
    (after (({ atA [] with pc := 0x80007FF8 }.withFetchWord 16 0x5890).setX 2 1)).x 1 = 1 := by decide

/-- T2. -/
theorem test_both_timers_fire :
    let t := after { atA [0x00] with timer0 := ⟨1, true, 2, 0x80000100⟩, timer1 := ⟨0, true, 1, 0x80000200⟩ }
    t.pc = 0x80000200 ∧ t.trace = [.event .trigger, .event (.timerFired .t0 0x80000100), .event (.timerFired .t1 0x80000200)] := by
  decide

/-- T4 and T5. -/
theorem test_timer_without_target_and_cancelled_halt :
    (after { atA [0x00] with timer0 := ⟨2, true, 3, 0⟩ }).trace = [.event .trigger, .warning (.timerNoTarget .t0)] ∧
    (after { atA [0x10] with timer0 := ⟨2, true, 3, 0x80000100⟩ }).status = .running ∧
    (after { atA [0x10] with timer0 := ⟨2, true, 3, 0x80000100⟩ }).pc = 0x80000100 := by decide

/-- P1's first cycle: the snapshot holds the value before the instruction. T7: no tick on a fault. -/
theorem test_snapshot_and_no_tick :
    (after ((atA [0x50, 0x80, 0x00, 0x00, 0x02, 0x80, 0x00, 0x00]).setX 1 1)).prevAt 1 = 1 ∧
    (after { atA [0xF0] with timer0 := ⟨2, true, 3, 0x80000100⟩ }).timer0.count = 2 := by decide

/-- S12, the reading `all_ones`, which the model does not take. -/
theorem test_all_ones_reading : snapshotOf .allOnes (Vector.replicate 16 0) = Vector.replicate 16 0xFFFFFFFF := by decide

/-! ## The bus -/

/-- What a load gives after a store. -/
def storeLoad (a bits v a' bits' : Nat) : Option Nat :=
  match State.reset.dram.busStore a bits v with
  | .ok d => match d.busLoad a' bits' with
    | .ok r => some r
    | .error _ => none
  | .error _ => none

/-- M1 to M3. -/
theorem test_bus_round_trip : storeLoad 0x80000100 8 0x1AB 0x80000100 8 = some 0xAB ∧
    storeLoad 0x80000100 32 0x11223344 0x80000101 16 = some 0x2233 ∧
    storeLoad 0x80000100 64 0x0102030405060708 0x80000104 32 = some 0x05060708 := by decide

/-- M4 to M7. -/
theorem test_bus_errors :
    State.reset.dram.busLoad 0x80007FFF 16 = .error (.outOfBounds 0x80007FFF 2) ∧
    State.reset.dram.busStore 0x7FFFFFFF 8 1 = .error (.outOfBounds 0x7FFFFFFF 1) ∧
    State.reset.dram.busLoad 0x80000000 24 = .error (.invalidWidth 24) ∧
    (Dram.busStore ⟨0xFFFF8000, 0x8000, []⟩ 0xFFFFFFFC 64 1) = .error (.outOfBounds 0xFFFFFFFC 8) := ⟨rfl, rfl, rfl, rfl⟩

/-! ## Witnesses: for each statement with hypotheses, states and operands that meet them, at boundary values -/

/-- The last 8, 2 and 1 bytes of DRAM. -/
theorem witness_BusLoadIsBigEndian : (8 ∈ [1, 2, 4, 8] ∧ State.reset.dram.inBounds 0x80007FF8 8 = true) ∧
    (1 ∈ [1, 2, 4, 8] ∧ State.reset.dram.inBounds 0x80007FFF 1 = true) := by decide

theorem witness_BusStoreThenLoadSeesTheBytes :
    (State.reset.dram.cells.wf ∧ 8 ∈ [1, 2, 4, 8] ∧ State.reset.dram.inBounds 0x80007FF8 8 = true) ∧
    (4 ∈ [1, 2, 4, 8] ∧ 4 + 4 ≤ 8) ∧ (0x80007FF7 < 0x80007FF8 ∧ 0x80007FF8 + 8 ≤ 0x80008000) := by decide

/-- An illegal width; the byte below DRAM; two bytes at its last one. -/
theorem witness_BusRejectsWidthAndRange : (24 ≠ 8 ∧ 24 ≠ 16 ∧ 24 ≠ 32 ∧ 24 ≠ 64) ∧
    (1 ∈ [1, 2, 4, 8] ∧ 0x7FFFFFFF < State.reset.dram.base.toNat) ∧
    (2 ∈ [1, 2, 4, 8] ∧ 0x80007FFF + 2 > State.reset.dram.base.toNat + State.reset.dram.size) := by decide

theorem witness_CanonicalMemoriesThatReadAlikeAreEqual : ∃ m m' : Memory, m ≠ [] ∧ m.wf ∧ m'.wf ∧ ∀ a, m.read a = m'.read a :=
  ⟨[(0x80000000, 0x5A)], [(0x80000000, 0x5A)], by decide, by decide, by decide, fun _ => rfl⟩

/-- Register 0 as the source of the instruction, and of the step. -/
theorem witness_RegisterZeroReadsZero : (∃ t, exec (.mov 4 0) (atA []) = .next t) ∧
    (∃ t, step (atA [0x5A, 0x00]) = .next t) ∧ (atA []).withStoredZero 9 ≠ atA [] := ⟨⟨_, rfl⟩, ⟨_, rfl⟩, by decide⟩

/-- V2-11 with another word stored behind register 0: x[4] is 0 all the same (R31). -/
theorem test_stored_zero_is_not_read : (after (((atA [0x5A, 0x00]).setX 4 9).withStoredZero 7)).x 4 = 0 := by decide

theorem witness_WriteToRegisterZeroIsDiscarded : (6#3 ≠ 7#3) ∧ (31#5).toNat ≤ (31#5).toNat ∧ (1#5).toNat > (0#5).toNat ∧
    (atA []).info.signal ((0xFFFFFF#24).setWidth 32) = some 0x12345678 ∧
    (atA []).info.signal ((0xFFFFFE#24).setWidth 32) = none := by decide

/-- Each opcode nibble with its ignored bits set, for the decode clauses of the one- and two-byte statements. -/
theorem witness_TriggerOnlyEmits : (0x0F#8).extractLsb' 4 4 = 0x0#4 := by decide
theorem witness_RetReturnsAndClearsLr : (0x1F#8).extractLsb' 4 4 = 0x1#4 ∧
    ∃ u, exec .ret (((atA []).setPc 0x80000040).setLr 0) = .next u := ⟨by decide, _, rfl⟩
theorem witness_TimerSetControlsOneTimer_decode : (0x2F#8).extractLsb' 4 4 = 0x2#4 := by decide
/-- Threshold 2, just above 1; threshold 1 with a target and threshold 0 without one, at most 1; the other timer disabled. -/
theorem witness_TimerSetControlsOneTimer_reset : ∃ s2 s1 s0 : State,
    ((∃ u, exec (.timerSet .t0 0) s2 = .next u) ∧ (s2.timer .t0).enabled = true ∧ (s2.timer .t0).threshold > 1#32) ∧
    ((∃ u, exec (.timerSet .t0 0) s1 = .next u) ∧ (s1.timer .t0).enabled = true ∧ (s1.timer .t0).threshold ≤ 1#32 ∧
      (s1.timer .t0).targetPc ≠ 0#32 ∧ (s1.timer .t1).enabled = false) ∧
    ((∃ u, exec (.timerSet .t0 0) s0 = .next u) ∧ (s0.timer .t0).enabled = true ∧ (s0.timer .t0).threshold ≤ 1#32 ∧
      (s0.timer .t0).targetPc = 0#32 ∧ (s0.timer .t1).enabled = false) :=
  ⟨{ atA [] with timer0 := ⟨4, true, 2, 0⟩ }, { atA [] with timer0 := ⟨0, true, 1, 0x80000100⟩ },
   { atA [] with timer0 := ⟨0, true, 0, 0⟩ }, ⟨⟨_, rfl⟩, by decide⟩, ⟨⟨_, rfl⟩, by decide⟩, ⟨⟨_, rfl⟩, by decide⟩⟩
/-- The same for enabling at count 0; in `s1` both timers fire and timer 1 is the one set; in `s0` the other does not redirect. -/
theorem witness_TimerSetControlsOneTimer_enable : ∃ s2 s1 s0 : State,
    ((∃ u, exec (.timerSet .t1 2) s2 = .next u) ∧ (s2.timer .t1).count = 0#32 ∧ (s2.timer .t1).threshold > 1#32) ∧
    ((∃ u, exec (.timerSet .t1 2) s1 = .next u) ∧ (s1.timer .t1).count = 0#32 ∧ (s1.timer .t1).threshold ≤ 1#32 ∧
      (s1.timer .t1).targetPc ≠ 0#32 ∧ s1.timer0.redirects) ∧
    ((∃ u, exec (.timerSet .t0 2) s0 = .next u) ∧ (s0.timer .t0).count = 0#32 ∧ (s0.timer .t0).threshold ≤ 1#32 ∧
      ¬ s0.timer1.redirects ∧ s0.timer1.enabled = true) :=
  ⟨{ atA [] with timer1 := ⟨0, false, 2, 0⟩ },
   { atA [] with timer1 := ⟨0, false, 1, 0x80000100⟩, timer0 := ⟨1, true, 2, 0x80000200⟩ },
   { atA [] with timer0 := ⟨0, false, 1, 0x80000100⟩, timer1 := ⟨0, true, 2, 0x80000200⟩ },
   ⟨⟨_, rfl⟩, by decide⟩, ⟨⟨_, rfl⟩, by decide, by decide, by decide, ⟨⟨by decide, by decide⟩, by decide⟩⟩,
   ⟨⟨_, rfl⟩, by decide, by decide, fun h => absurd h.1.2 (by decide), by decide⟩⟩

theorem witness_TriggerPosOnlyEmits : (0x3F#8).extractLsb' 4 4 = 0x3#4 := by decide
theorem witness_JmpAddsTheSignedOffset : (0x4F#8).extractLsb' 4 4 = 0x4#4 := by decide
theorem witness_MovCopiesTheRegister : (0x5F#8).extractLsb' 4 4 = 0x5#4 ∧ (0x5F#8).getLsbD 3 = true := by decide
theorem witness_BlLinksAndBranches : (0x6F#8).extractLsb' 4 4 = 0x6#4 := by decide
theorem witness_DomainSetWritesOnHitAndMiss : (0x7F#8).extractLsb' 4 4 = 0x7#4 ∧ 7#8 ∈ (atA []).info.domains ∧
    255#8 ∉ (atA []).info.domains := by decide
theorem witness_DisplayEmitsOrWarns : (0x8F#8).extractLsb' 4 4 = 0x8#4 ∧ 5#10 ∈ (atA []).info.displays ∧
    1023#10 ∉ (atA []).info.displays := by decide
theorem witness_ExecEmitsOrFaults : (0x9F#8).extractLsb' 4 4 = 0x9#4 ∧ 9#10 ∈ (atA []).info.execs ∧
    1023#10 ∉ (atA []).info.execs := by decide
theorem witness_EdgeDetectWritesTheEdgeTest : (0xAF#8).extractLsb' 4 4 = 0xA#4 ∧
    ∀ fn ∈ [0#3, 1#3, 2#3, 3#3, 4#3, 5#3, 6#3], fn ≠ 7#3 := by decide

theorem witness_JmpcJumpsWhenTheConditionHolds : (0xBF#8).extractLsb' 4 4 = 0xB#4 ∧
    ∀ fn ∈ [0#4, 1#4, 2#4, 3#4, 4#4, 5#4, 6#4, 7#4], fn.toNat < 8 := by decide
theorem witness_JmpcInvalidFunctionFaults : 8 ≤ (8#4).toNat ∧ 8 ≤ (15#4).toNat := by decide

/-- All bits set, one clear; one bit set, all clear. -/
theorem witness_ReductionsWriteTheirResult :
    (∀ k, k < 32 → (((atA []).setX 1 0xFFFFFFFF).x 1).getLsbD k = true) ∧
    (∃ k, k < 32 ∧ (((atA []).setX 1 0x7FFFFFFF).x 1).getLsbD k = false) ∧
    (∃ k, k < 32 ∧ (((atA []).setX 1 0x80000000).x 1).getLsbD k = true) ∧
    (∀ k, k < 32 → ((atA []).x 1).getLsbD k = false) :=
  ⟨by decide, ⟨31, by decide⟩, ⟨31, by decide⟩, by decide⟩

/-- Functions 10 and 15, the last four bytes of DRAM for the second. -/
theorem witness_ArithInvalidFunctionFaults : ∃ s s' : State,
    (s.status = .running ∧ s.dram.legal = true ∧ s.dram.inBounds s.pc.toNat 4 = true ∧
      (s.dram.cells.read s.pc.toNat).extractLsb' 4 4 = 0xC#4 ∧
      10 ≤ ((s.dram.cells.read s.pc.toNat).extractLsb' 0 4).toNat) ∧
    (s'.status = .running ∧ s'.dram.legal = true ∧ s'.dram.inBounds s'.pc.toNat 4 = true ∧
      (s'.dram.cells.read s'.pc.toNat).extractLsb' 4 4 = 0xC#4 ∧
      10 ≤ ((s'.dram.cells.read s'.pc.toNat).extractLsb' 0 4).toNat) :=
  ⟨atA [0xCA, 0x31, 0x20, 0x00], { atA [] with pc := 0x80007FFC }.withFetchWord 32 0xCF012000, by decide, by decide⟩

theorem witness_BitSliceExtractsOrFaults : (0xDF#8).extractLsb' 4 4 = 0xD#4 ∧ (0#5).toNat ≤ (31#5).toNat ∧
    (31#5).toNat ≤ (31#5).toNat ∧ (1#5).toNat > (0#5).toNat := by decide
theorem witness_LoadReadsTheSignalTable : (0xEF#8).extractLsb' 4 4 = 0xE#4 ∧
    (atA []).info.signal (BitVec.ofNat 32 (0xFFFFFF#24).toNat) = some 0x12345678 ∧
    (atA []).info.signal (BitVec.ofNat 32 (0xFFFFFE#24).toNat) = none := by decide
/-- The discriminator clear; set with one bit behind it. -/
theorem witness_MoviWritesTheImmediateOrFaults :
    ((0x57#8).extractLsb' 4 4 = 0x5#4 ∧ (0x57#8).getLsbD 3 = false) ∧
    ((0x58#8).extractLsb' 4 4 = 0x5#4 ∧ (0#8 ++ 0#8 ++ 0#8 ++ 0#8 ++ 0#8 ++ 1#8 : BitVec 48) ≠ 0#48) := by decide

/-- The last immediate that keeps a set reserved bit apart from a MOV. -/
theorem witness_DecodeOfEncodeIsTheInstruction : Instr.wellFormed (.movi 1 15 1) = true ∧
    Instr.wellFormed (.movi 1 15 0x01000000) = true ∧ Instr.wellFormed (.mov 15 15) = true := by decide
theorem witness_DecodedInstructionFitsItsBytes : decode [0x58, 0x90, 0, 0, 0, 0, 0, 0] = .instr (.mov 1 2) ∧
    (Instr.mov 1 2).op = 5#4 := by decide

/-- Disabled; one below the threshold; at it, with and without a target. -/
theorem witness_OneTimerTicksAsListed : ∃ d b f w : State, (d.timer .t0).enabled = false ∧
    ((b.timer .t0).enabled = true ∧ (b.timer .t0).count + 1#32 < (b.timer .t0).threshold) ∧
    ((f.timer .t0).enabled = true ∧ (f.timer .t0).count + 1#32 ≥ (f.timer .t0).threshold ∧ (f.timer .t0).targetPc ≠ 0#32) ∧
    ((w.timer .t0).enabled = true ∧ (w.timer .t0).count + 1#32 ≥ (w.timer .t0).threshold ∧ (w.timer .t0).targetPc = 0#32) :=
  ⟨atA [], { atA [] with timer0 := ⟨1, true, 3, 0⟩ }, { atA [] with timer0 := ⟨2, true, 3, 1⟩ },
   { atA [] with timer0 := ⟨2, true, 3, 0⟩ }, by decide, by decide, by decide, by decide⟩
theorem witness_TickTouchesOnlyTimersPcAndTrace : ∃ s s' : State, s ≠ s' ∧ s.timer0 = s'.timer0 ∧ s.timer1 = s'.timer1 ∧
    s.timer0.enabled = true :=
  ⟨{ atA [] with timer0 := ⟨2, true, 3, 1⟩ }, { atA [] with timer0 := ⟨2, true, 3, 1⟩, pc := 5 }, by decide, by decide,
   by decide, by decide⟩
theorem witness_TimerOneWinsWhenBothFire : ∃ s : State, s.timer0.enabled = true ∧ s.timer1.enabled = true ∧
    s.timer0.count + 1#32 ≥ s.timer0.threshold ∧ s.timer1.count + 1#32 ≥ s.timer1.threshold ∧
    s.timer0.targetPc ≠ 0#32 ∧ s.timer1.targetPc ≠ 0#32 :=
  ⟨{ atA [] with timer0 := ⟨1, true, 2, 0x80000100⟩, timer1 := ⟨0, true, 1, 0x80000200⟩ }, by decide⟩
theorem witness_EnabledTimerFiresPeriodically : ∃ s s0 : State,
    ((s.timer .t0).enabled = true ∧ (s.timer .t0).count = 0#32 ∧ (s.timer .t0).threshold = 3) ∧
    ((s0.timer .t0).enabled = true ∧ (s0.timer .t0).count = 0#32 ∧ (s0.timer .t0).threshold = 0) :=
  ⟨{ atA [] with timer0 := ⟨0, true, 3, 0x80000100⟩ }, { atA [] with timer0 := ⟨0, true, 0, 0⟩ }, by decide, by decide⟩

/-- A clause that goes on and one that faults. -/
theorem witness_StepRunsTheDecodedInstruction : ∃ s s' t t' : State,
    (s.status = .running ∧ s.dram.legal = true ∧ decode (s.dram.bytesFrom s.pc.toNat 8) = .instr (.trigger) ∧
      exec .trigger { s with pc := s.pc + BitVec.ofNat 32 (Instr.trigger).width.bytes } = .next t ∧ t.status = .running) ∧
    (s'.status = .running ∧ s'.dram.legal = true ∧ decode (s'.dram.bytesFrom s'.pc.toNat 8) = .instr (.exec 10) ∧
      exec (.exec 10) { s' with pc := s'.pc + BitVec.ofNat 32 (Instr.exec 10).width.bytes } = .next t' ∧ t'.status ≠ .running) :=
  ⟨atA [0x00], atA [0x90, 0x28], _, _, ⟨by decide, by decide, by decide, rfl, by decide⟩,
   ⟨by decide, by decide, by decide, rfl, by decide⟩⟩
/-- Each width at the last address where it fits. -/
theorem witness_FetchReadsTheBus : (8 ∈ [1, 2, 4, 8] ∧ State.reset.dram.inBounds (0x80007FF8#32).toNat 8 = true) ∧
    (4 ∈ [1, 2, 4, 8] ∧ State.reset.dram.inBounds (0x80007FFC#32).toNat 4 = true) ∧
    (2 ∈ [1, 2, 4, 8] ∧ State.reset.dram.inBounds (0x80007FFE#32).toNat 2 = true) ∧
    (1 ∈ [1, 2, 4, 8] ∧ State.reset.dram.inBounds (0x80007FFF#32).toNat 1 = true) := by decide
theorem witness_UnknownOpcodeDoesNotAdvance : ∃ s : State, s.status = .running ∧ s.dram.legal = true ∧
    s.dram.inBounds s.pc.toNat 1 = true ∧ (s.dram.cells.read s.pc.toNat).extractLsb' 4 4 = 0xF#4 :=
  ⟨atA [0xF0], by decide⟩

/-- A state that fetches the table word `w` of `nbits` bits at `pc`. -/
def fetching (pc : Word) (nbits w : Nat) : State := { atA [] with pc := pc }.withFetchWord nbits w

/-- The address after DRAM; each window one byte short. -/
theorem witness_FetchOutOfRangeFaults :
    ((fetching 0x80008000 8 0).status = .running ∧ (fetching 0x80008000 8 0).dram.legal = true ∧
      (fetching 0x80008000 8 0).dram.inBounds 0x80008000 1 = false) ∧
    ((fetching 0x80007FF9 64 0x5080000002800000).dram.inBounds 0x80007FF9 1 = true ∧
      ((fetching 0x80007FF9 64 0x5080000002800000).dram.cells.read 0x80007FF9).extractLsb' 4 4 = 5#4 ∧
      (fetching 0x80007FF9 64 0x5080000002800000).dram.inBounds 0x80007FF9 8 = false) ∧
    ((fetching 0x80007FFF 16 0xA000).dram.inBounds 0x80007FFF 1 = true ∧
      ((fetching 0x80007FFF 16 0xA000).dram.cells.read 0x80007FFF).extractLsb' 4 4 = 10#4 ∧
      (fetching 0x80007FFF 16 0xA000).dram.inBounds 0x80007FFF 2 = false) ∧
    ((fetching 0x80007FFD 32 0xE1000000).dram.inBounds 0x80007FFD 1 = true ∧
      ((fetching 0x80007FFD 32 0xE1000000).dram.cells.read 0x80007FFD).extractLsb' 4 4 = 14#4 ∧
      (fetching 0x80007FFD 32 0xE1000000).dram.inBounds 0x80007FFD 4 = false) := by decide
/-- Each class at the last address where it fits. -/
theorem witness_ClassifierGivesTheTableWidth :
    (((fetching 0x80007FFF 8 0x20).dram.cells.read 0x80007FFF).extractLsb' 4 4 = 2#4 ∧
      (fetching 0x80007FFF 8 0x20).dram.inBounds 0x80007FFF 1 = true) ∧
    (((fetching 0x80007FFE 16 0xA000).dram.cells.read 0x80007FFE).extractLsb' 4 4 = 10#4 ∧
      (fetching 0x80007FFE 16 0xA000).dram.inBounds 0x80007FFE 2 = true) ∧
    (((fetching 0x80007FFC 32 0xCA312000).dram.cells.read 0x80007FFC).extractLsb' 4 4 = 12#4 ∧
      (fetching 0x80007FFC 32 0xCA312000).dram.inBounds 0x80007FFC 4 = true) ∧
    (((fetching 0x80007FF8 16 0x5890).dram.cells.read 0x80007FF8).extractLsb' 4 4 = 5#4 ∧
      (fetching 0x80007FF8 16 0x5890).dram.inBounds 0x80007FF8 8 = true) := by decide

/-- An execute-stage and a fetch-stage fault. -/
theorem witness_FatalFaultsChangeOnlyPcAndStatus : ∃ s t : State, ∃ rec, s.status = .running ∧ step s = .next t ∧
    t.status = .faulted rec := ⟨atA [0xD2, 0x13, 0x90, 0x00], _, _, by decide, rfl, rfl⟩
theorem witness_FaultRecordNamesTheInstruction : ∃ s t s' t' : State, ∃ rec rec',
    (s.status = .running ∧ step s = .next t ∧ t.status = .faulted rec ∧ rec.code.atFetch = false) ∧
    (s'.status = .running ∧ step s' = .next t' ∧ t'.status = .faulted rec' ∧ rec'.code.atFetch = true ∧ rec'.op = none) :=
  ⟨atA [0xD2, 0x13, 0x90, 0x00], _, { State.reset with pc := 0x80008000 }, _, _, _, ⟨by decide, rfl, rfl, rfl⟩,
   ⟨by decide, rfl, rfl, rfl, rfl⟩⟩
theorem not_faulted {t : State} (h : t.status = .running ∨ t.status = .halted) : ∀ rec, t.status ≠ .faulted rec := by
  intro rec hr
  rcases h with h | h <;> rw [h] at hr <;> cases hr
theorem witness_SnapshotHoldsTheRegistersBefore : ∃ s t : State, s.status = .running ∧ step s = .next t ∧
    (∀ rec, t.status ≠ .faulted rec) ∧ ((t.x 1).getLsbD 0 = (s.x 1).getLsbD 0) ∧ EdgeFn.rising ∈ [EdgeFn.rising, .falling, .anyTransition] :=
  ⟨atA [0x00], _, by decide, rfl, not_faulted (.inl rfl), by decide, by decide⟩
/-- A step that goes on and one that halts. -/
theorem witness_RunHaltsExactlyAtPcZero : ∃ s t s' t' : State,
    (s.status = .running ∧ step s = .next t ∧ (∀ rec, t.status ≠ .faulted rec) ∧ t.pc ≠ 0#32) ∧
    (s'.status = .running ∧ step s' = .next t' ∧ (∀ rec, t'.status ≠ .faulted rec) ∧ t'.pc = 0#32) :=
  ⟨atA [0x00], _, atA [0x10], _, ⟨by decide, rfl, not_faulted (.inl rfl), by decide⟩,
   ⟨by decide, rfl, not_faulted (.inr rfl), rfl⟩⟩
/-- What the statement asks of the state in each of its clauses: a RET with LR = 0 at the pc. -/
def RetWithZeroLink (s : State) : Prop :=
  s.status = .running ∧ s.dram.legal = true ∧ s.dram.inBounds s.pc.toNat 1 = true ∧
    (s.dram.cells.read s.pc.toNat).extractLsb' 4 4 = 1#4 ∧ s.getReg 16 = 0#32
/-- Both timers off; one enabled a tick short of its threshold beside one at its threshold without a target. -/
theorem witness_RetWithZeroLinkHaltsUnlessATimerFires_halts : ∃ s s' : State,
    (RetWithZeroLink s ∧ ∀ k, (s.timer k).enabled = false ∨ (s.timer k).count + 1#32 < (s.timer k).threshold ∨
      (s.timer k).targetPc = 0#32) ∧
    (RetWithZeroLink s' ∧ s'.timer0.enabled = true ∧ s'.timer1.enabled = true ∧
      ∀ k, (s'.timer k).enabled = false ∨ (s'.timer k).count + 1#32 < (s'.timer k).threshold ∨
        (s'.timer k).targetPc = 0#32) :=
  ⟨atA [0x10], { atA [0x1F] with timer0 := ⟨1, true, 3, 0x80000100⟩, timer1 := ⟨2, true, 3, 0⟩ },
   ⟨by unfold RetWithZeroLink; decide, fun k => by cases k <;> decide⟩,
   ⟨by unfold RetWithZeroLink; decide, by decide, by decide, fun k => by cases k <;> decide⟩⟩
/-- Timer 1 at its threshold with a target; timer 0 alone so. -/
theorem witness_RetWithZeroLinkHaltsUnlessATimerFires_goesOn : ∃ s s' : State,
    (RetWithZeroLink s ∧ s.timer1.redirects) ∧ (RetWithZeroLink s' ∧ s'.timer0.redirects ∧ ¬ s'.timer1.redirects) :=
  ⟨{ atA [0x1F] with timer1 := ⟨2, true, 3, 0x80000100⟩ }, { atA [0x10] with timer0 := ⟨2, true, 3, 0x80000100⟩ },
   ⟨by unfold RetWithZeroLink; decide, ⟨by decide, by decide⟩, by decide⟩,
   ⟨by unfold RetWithZeroLink; decide, ⟨⟨by decide, by decide⟩, by decide⟩, fun h => absurd h.1.1 (by decide)⟩⟩
theorem witness_EndedRunsStayAsTheyAre : (after (atA [0x10])).status ≠ .running ∧ (after (atA [0xF0])).status ≠ .running := by
  decide
/-- The whole address space is a legal size, one byte more is not; neither is no byte. -/
theorem witness_EveryStepAnswersANextState : (Dram.legal ⟨0, 2 ^ 32, []⟩ = true ∧ Dram.legal ⟨1, 2 ^ 32, []⟩ = false ∧
    Dram.legal ⟨0, 0, []⟩ = false) ∧ (State.boot { memSize := 0 } []).status = .running := by decide

theorem witness_LaunchEstablishesTheInvariant :
    (1 ≤ 1 ∧ (0xFFFFFFFF#32).toNat + 1 ≤ 2 ^ 32) ∧ (1 ≤ 2 ^ 32 ∧ (0#32).toNat + 2 ^ 32 ≤ 2 ^ 32) := by decide
theorem witness_EveryStepKeepsTheBlockInvariant : ∃ s t : State, s.Inv ∧ step s = .next t := by
  refine ⟨State.reset, _, ⟨by decide, ?_, by decide, by decide, by decide, ⟨.inl rfl, .inl rfl⟩, ?_, ?_⟩, rfl⟩
  · intro c h; cases h
  · intro h; cases h
  · intro rec h; cases h
theorem witness_NoStepWritesLaunchInputsOrCounters : ∃ t, step (atA [0x70, 0x70]) = .next t := ⟨_, rfl⟩
/-- Each of the four clauses: LR by BL, `domain`, an enable, a general register. -/
theorem witness_EachStateHasOnlyItsOwnWriters :
    (∃ t, exec (.bl 8) (atA []) = .next t ∧ t.getReg 16 ≠ (atA []).getReg 16) ∧
    (∃ t, exec (.domainSet 7) (atA []) = .next t ∧ t.domain ≠ (atA []).domain) ∧
    (∃ t, exec (.timerSet .t1 2) (atA []) = .next t ∧ (t.timer .t1).enabled ≠ ((atA []).timer .t1).enabled) ∧
    (∃ t, exec (.movi 0 15 1) (atA []) = .next t ∧ t.x 15 ≠ (atA []).x 15) :=
  ⟨⟨_, rfl, by decide⟩, ⟨_, rfl, by decide⟩, ⟨_, rfl, by decide⟩, ⟨_, rfl, by decide⟩⟩
theorem witness_ExecuteFaultsOnlyOnIllegalEncodingsAndMisses : (atA []).status = .running := by decide
theorem witness_TraceGrowsByAtMostThree : ∃ t, step { atA [0x00] with timer0 := ⟨1, true, 2, 5⟩, timer1 := ⟨0, true, 1, 5⟩ }
    = .next t ∧ t.trace.length = 3 := ⟨_, rfl, by decide⟩
theorem witness_OutputsAreNeverRead : ∃ s s' t : State, s ≠ s' ∧ s.withoutOutputs = s'.withoutOutputs ∧ step s = .next t :=
  ⟨atA [0x70, 0x70], { atA [0x70, 0x70] with domain := 3, counters := Vector.replicate 2 7 }, _, by decide, by decide, rfl⟩
/-- Contents that differ one byte behind the window. -/
theorem witness_StepReadsOnlyTheFetchWindow : ∃ s t : State, ∃ m : Memory, m ≠ s.dram.cells ∧
    (∀ k, k < 8 → m.read (s.pc.toNat + k) = s.dram.cells.read (s.pc.toNat + k)) ∧ step s = .next t :=
  ⟨atA [0x00], _, [(0x80000018, 0x55)], by decide, by decide, rfl⟩
theorem witness_PlacedWordIsFetched : ∃ s : State, s.dram.cells.wf ∧ s.dram.inBounds s.pc.toNat 8 = true ∧
    decodeTableWord 32 0xC8312000 = some (.add 3 1 2) :=
  ⟨{ atA [0xF0] with pc := 0x80007FF8 }, by decide⟩

end Sys2Proof.Tests
end

section
/-! PROOFS. The statements about the whole state: what every step keeps, what no step reads, and who writes what. -/

namespace Sys2Proof.Machine

/-! ### What a step that answered a next state has done -/

theorem step_eq_cycle {s : State} (hr : s.status = .running) (hl : s.dram.legal = true) : step s = cycle s := by
  simp [step, runStep, hr, hl]

/-- The inversion of a step: an ended run that stays, one of the three places a fatal fault comes from, or a whole
cycle. -/
theorem step_next_cases {s t : State} (h : step s = .next t) :
    (s.status ≠ .running ∧ t = s) ∨
    (s.status = .running ∧
      ((∃ r, fetch s = .reject r ∧ t = s.takeFault (FetchReject.record r s.pc)) ∨
      (∃ fn, fetch s = .invalidArithFunc fn ∧ t = arithFault fn s) ∨
      (∃ i, fetch s = .instr i ∧ Raised i (s.advance i.width) t) ∨
      (∃ i u items, fetch s = .instr i ∧ Completed (s.advance i.width) u items ∧
        t = check (timerTick (snapshot s.latch u))))) := by
  by_cases hr : s.status = .running
  · cases hl : s.dram.legal with
    | false => rw [step_of_illegal hr hl] at h; cases h
    | true =>
      refine .inr ⟨hr, ?_⟩
      rcases step_cases hr hl with ⟨r, hf, ht⟩ | ⟨fn, hf, ht⟩ | ⟨i, u, hf, -, hR, ht⟩ | ⟨i, u, items, hf, -, hC, ht⟩ <;>
        rw [ht] at h <;> cases h
      · exact .inl ⟨r, hf, rfl⟩
      · exact .inr (.inl ⟨fn, hf, rfl⟩)
      · exact .inr (.inr (.inl ⟨i, hf, hR⟩))
      · exact .inr (.inr (.inr ⟨i, u, items, hf, hC, rfl⟩))
  · rw [step_of_not_running hr] at h
    cases h
    exact .inl ⟨hr, rfl⟩

/-! ### Launch inputs and reserved state -/

/-- What is the same before and after a step: DRAM, INFO, the reserved counters, the timers' thresholds and targets. -/
structure KeepsInputs (s t : State) : Prop where
  dram : t.dram = s.dram
  info : t.info = s.info
  counters : t.counters = s.counters
  threshold : ∀ k, (t.timer k).threshold = (s.timer k).threshold
  targetPc : ∀ k, (t.timer k).targetPc = (s.timer k).targetPc

/-- A fatal fault writes the pc and the status alone. -/
theorem keepsInputs_fault (s : State) (pc : Word) (st : Status) : KeepsInputs s { s with pc := pc, status := st } :=
  ⟨rfl, rfl, rfl, fun k => by cases k <;> rfl, fun k => by cases k <;> rfl⟩

@[simp] theorem tickedTimer_threshold (r : Timer) : (tickedTimer r).threshold = r.threshold := by
  unfold tickedTimer; split_ifs <;> rfl

@[simp] theorem tickedTimer_targetPc (r : Timer) : (tickedTimer r).targetPc = r.targetPc := by
  unfold tickedTimer; split_ifs <;> rfl

/-- Each timer at the end of a cycle that raised no fatal fault. -/
theorem endOfCycle_timer (pre : Vector Word 16) (u : State) (k : TimerId) :
    (check (timerTick (snapshot pre u))).timer k = tickedTimer (u.timer k) := by
  rw [check_timer, timerTick_timer, snapshot_timer]

theorem Completed.keepsInputs {s u : State} {w : Width} {items : List TraceItem}
    (hC : Completed (s.advance w) u items) (pre : Vector Word 16) :
    KeepsInputs s (check (timerTick (snapshot pre u))) where
  dram := by simp [hC.dram]
  info := by simp [hC.info]
  counters := by simp [hC.counters]
  threshold := fun k => by rw [endOfCycle_timer, tickedTimer_threshold, hC.threshold, State.advance_timer]
  targetPc := fun k => by rw [endOfCycle_timer, tickedTimer_targetPc, hC.targetPc, State.advance_timer]

theorem step_keepsInputs {s t : State} (h : step s = .next t) : KeepsInputs s t := by
  rcases step_next_cases h with
    ⟨-, rfl⟩ | ⟨-, ⟨r, -, rfl⟩ | ⟨fn, -, rfl⟩ | ⟨i, -, _, _, rfl, -⟩ | ⟨i, u, _, -, hC, rfl⟩⟩
  · exact keepsInputs_fault t t.pc t.status
  · exact keepsInputs_fault s s.pc _
  · exact keepsInputs_fault s _ _
  · exact keepsInputs_fault s _ _
  · exact hC.keepsInputs _

/-- Settles O54, from the frame of the step. -/
theorem noStepWritesLaunchInputsOrCounters : Obligations.NoStepWritesLaunchInputsOrCounters := by
  intro s t h
  obtain ⟨hdram, hinfo, hcounters, hthreshold, htarget⟩ := step_keepsInputs h
  exact ⟨hdram, fun a => by rw [hdram], hinfo, hcounters, fun k => ⟨hthreshold k, htarget k⟩⟩

/-! ### The block invariant -/

theorem FetchReject.pcAdvance_code (r : FetchReject) : (FetchReject.code r).pcAdvance = 0 := by cases r <;> rfl

/-- A fatal fault keeps the invariant when it leaves the pc where the fault table says. -/
theorem State.Inv.fault {s : State} (hs : s.Inv) {pc : Word} {rec : FaultRecord}
    (hpc : pc = rec.faultPc + BitVec.ofNat 32 rec.code.pcAdvance) :
    ({ s with pc := pc, status := .faulted rec } : State).Inv where
  canonical := hs.canonical
  inside := hs.inside
  legal := hs.legal
  prevZero := hs.prevZero
  counters := hs.counters
  timers := hs.timers
  halted := fun h => by cases h
  faulted := fun _ h => by cases h; exact hpc

theorem State.Inv.timer_bounded {s : State} (hs : s.Inv) (k : TimerId) : (s.timer k).bounded := by
  obtain ⟨h0, h1⟩ := hs.timers
  cases k
  · exact h0
  · exact h1

/-- An instruction leaves a timer's threshold and at most clears its count. -/
theorem Completed.bounded {s u : State} {items : List TraceItem} (hC : Completed s u items) {k : TimerId}
    (h : (s.timer k).bounded) : (u.timer k).bounded := by
  rcases hC.count k with hcount | hcount
  · simpa only [Timer.bounded, hcount, hC.threshold k] using h
  · exact .inl hcount

/-- The tick clears a count that reaches the threshold. -/
theorem tickedTimer_bounded {r : Timer} (h : r.bounded) : (tickedTimer r).bounded := by
  unfold tickedTimer
  split_ifs with _ hreach
  · exact .inl rfl
  · exact .inr (BitVec.not_le.mp hreach)
  · exact h

/-- SNAPSHOT takes entry 0 from register 0. -/
theorem snapshot_prevAt_zero (s u : State) : (snapshot s.latch u).prevAt 0 = 0#32 := by
  have : (snapshot s.latch u).prevAt 0 = s.getReg 0 := State.latch_getElem s 0 (by decide)
  rw [this, State.getReg_zero]

/-- CHECK halts at pc 0 alone, and otherwise leaves the status. -/
theorem check_status (s : State) : (check s).status = if s.pc = 0#32 then .halted else s.status := by
  unfold check; split_ifs <;> rfl

/-- The end of a cycle keeps the invariant. -/
theorem State.Inv.endOfCycle {s u : State} (hs : s.Inv) (hr : s.status = .running) {w : Width}
    {items : List TraceItem} (hC : Completed (s.advance w) u items) :
    (check (timerTick (snapshot s.latch u))).Inv := by
  have hk := hC.keepsInputs s.latch
  have hbounded (k : TimerId) : ((check (timerTick (snapshot s.latch u))).timer k).bounded := by
    rw [endOfCycle_timer]
    exact tickedTimer_bounded (hC.bounded (by simpa using hs.timer_bounded k))
  have hstatus := check_status (timerTick (snapshot s.latch u))
  rw [timerTick_status, snapshot_status, hC.status, State.advance_status, hr] at hstatus
  refine ⟨?_, ?_, ?_, ?_, ?_, ⟨hbounded .t0, hbounded .t1⟩, fun hhalted => ?_, fun rec hfaulted => ?_⟩
  · rw [hk.dram]; exact hs.canonical
  · rw [hk.dram]; exact hs.inside
  · rw [hk.dram]; exact hs.legal
  · simpa [State.prevAt] using snapshot_prevAt_zero s u
  · rw [hk.counters]; exact hs.counters
  · rw [check_pc]
    by_contra hpc
    rw [hstatus, if_neg hpc] at hhalted
    cases hhalted
  · rw [hfaulted] at hstatus
    split_ifs at hstatus

theorem step_keepsInv {s t : State} (hs : s.Inv) (h : step s = .next t) : t.Inv := by
  rcases step_next_cases h with
    ⟨-, rfl⟩ | ⟨hr, ⟨r, -, rfl⟩ | ⟨fn, -, rfl⟩ | ⟨i, -, _, _, rfl, -, hadv⟩ | ⟨i, u, _, -, hC, rfl⟩⟩
  · exact hs
  · exact hs.fault (by simp [FetchReject.record, FetchReject.pcAdvance_code])
  · exact hs.fault rfl
  · exact hs.fault (by simp [hadv])
  · exact hs.endOfCycle hr hC

/-- Settles O53, along the cases of a step. -/
theorem everyStepKeepsTheBlockInvariant : Obligations.EveryStepKeepsTheBlockInvariant :=
  fun _ _ hs h => step_keepsInv hs h

/-- Settles O50: a step takes a cycle only when the status is Running. -/
theorem endedRunsStayAsTheyAre : Obligations.EndedRunsStayAsTheyAre :=
  fun _ h => step_of_not_running h

end Sys2Proof.Machine
end

section
/-! PROOFS. Two runs: what no instruction reads changes nothing but itself. One argument over all instructions, used for
the word stored behind register 0, for the outputs, and for DRAM outside the fetch window. -/

namespace Sys2Proof.Machine

/-! ### Relations between states that the block cannot tell apart -/

/-- States related by `R` answer every read of EXECUTE, TICK and CHECK alike, and every update of theirs keeps them
related. What FETCH reads is left out: it is asked for where a step is spoken of. -/
structure Blind (R : State → State → Prop) : Prop where
  getReg : ∀ {s s'}, R s s' → ∀ i, s'.getReg i = s.getReg i
  pc : ∀ {s s'}, R s s' → s'.pc = s.pc
  prev : ∀ {s s'}, R s s' → s'.prev = s.prev
  timer : ∀ {s s'}, R s s' → ∀ k, s'.timer k = s.timer k
  status : ∀ {s s'}, R s s' → s'.status = s.status
  info : ∀ {s s'}, R s s' → s'.info = s.info
  legal : ∀ {s s'}, R s s' → s'.dram.legal = s.dram.legal
  setReg : ∀ {s s'}, R s s' → ∀ i v, R (s.setReg i v) (s'.setReg i v)
  setPc : ∀ {s s'}, R s s' → ∀ v, R (s.setPc v) (s'.setPc v)
  setTimer : ∀ {s s'}, R s s' → ∀ k r, R (s.setTimer k r) (s'.setTimer k r)
  setDomain : ∀ {s s'}, R s s' → ∀ d, R { s with domain := d } { s' with domain := d }
  emit : ∀ {s s'}, R s s' → ∀ e, R (s.emit e) (s'.emit e)
  warn : ∀ {s s'}, R s s' → ∀ w, R (s.warn w) (s'.warn w)
  setStatus : ∀ {s s'}, R s s' → ∀ st, R { s with status := st } { s' with status := st }
  snapshot : ∀ {s s'}, R s s' → ∀ pre, R (snapshot pre s) (snapshot pre s')

/-- Both answers are next states, and related. -/
def NextRelated (R : State → State → Prop) (o o' : Host.Outcome State Fault Refusal) : Prop :=
  ∃ t t', o = .next t ∧ o' = .next t' ∧ R t t'

theorem NextRelated.next {R : State → State → Prop} {t t' : State} (h : R t t') :
    NextRelated R (.next t) (.next t') :=
  ⟨t, t', rfl, rfl, h⟩

/-- The second answer, where the first is known. -/
theorem NextRelated.of_next {R : State → State → Prop} {o o' : Host.Outcome State Fault Refusal} {t : State}
    (h : NextRelated R o o') (ht : o = .next t) : ∃ t', o' = .next t' ∧ R t t' := by
  obtain ⟨u, t', hu, ht', hR⟩ := h
  rw [ht] at hu
  cases hu
  exact ⟨t', ht', hR⟩

namespace Blind
variable {R : State → State → Prop} (hB : Blind R) {s s' : State} (h : R s s')
include hB h

/-! #### Derived reads -/

theorem x (r : RegIdx) : s'.x r = s.x r := hB.getReg h _

theorem lr : s'.lr = s.lr := hB.getReg h _

theorem latch : s'.latch = s.latch := by simp only [State.latch, hB.getReg h]

theorem target {n : Nat} (off : BitVec n) : s'.target off = s.target off := by rw [State.target, hB.pc h, State.target]

theorem curBit (r : RegIdx) : s'.curBit r = s.curBit r := by rw [State.curBit, hB.x h, State.curBit]

theorem oldBit (r : RegIdx) : s'.oldBit r = s.oldBit r := by simp only [State.oldBit, State.prevAt, hB.prev h]

theorem jmpcHolds (f : JmpcFn) (rs1 rs2 : RegIdx) :
    Machine.jmpcHolds f rs1 rs2 s' = Machine.jmpcHolds f rs1 rs2 s := by
  cases f <;> simp only [Machine.jmpcHolds, hB.x h, hB.curBit h, hB.oldBit h]

/-! #### Derived updates -/

theorem advance (w : Width) : R (s.advance w) (s'.advance w) := by
  have := hB.setPc h (s.pc + BitVec.ofNat 32 w.bytes)
  rwa [State.advance, State.advance, hB.pc h]

theorem takeFault (rec : FaultRecord) : R (s.takeFault rec) (s'.takeFault rec) := hB.setStatus h _

theorem raise (i : Instr) (code : FaultCode) (info : FaultInfo) :
    NextRelated R (raise i code info s) (raise i code info s') := by
  rw [Machine.raise, Machine.raise, hB.pc h]
  exact .next (hB.takeFault h _)

theorem arithOp (f : ArithFn) (rd rs1 rs2 : RegIdx) :
    NextRelated R (arithOp f rd rs1 rs2 s) (arithOp f rd rs1 rs2 s') := by
  rw [Machine.arithOp, Machine.arithOp, hB.x h, hB.x h]
  exact .next (hB.setReg h _ _)

theorem arithFault (fn : BitVec 4) : R (arithFault fn s) (arithFault fn s') := by
  rw [Machine.arithFault, Machine.arithFault, hB.pc h]
  exact hB.takeFault (hB.advance h _) _

theorem tickTimer (k : TimerId) : R (tickTimer k s) (tickTimer k s') := by
  simp only [Machine.tickTimer, hB.timer h]
  split_ifs
  · exact hB.emit (hB.setPc (hB.setTimer h _ _) _) _
  · exact hB.warn (hB.setTimer h _ _) _
  · exact hB.setTimer h _ _
  · exact h

theorem check : R (check s) (check s') := by
  by_cases hpc : s.pc = 0#32
  · rw [Machine.check, Machine.check, if_pos hpc, if_pos ((hB.pc h).trans hpc)]
    exact hB.setStatus h _
  · rwa [Machine.check, Machine.check, if_neg hpc, if_neg (by rwa [hB.pc h])]

theorem complete (pre : Vector Word 16) : R (complete pre s) (complete pre s') := by
  by_cases hr : s.status = .running
  · rw [complete_of_running pre hr, complete_of_running pre ((hB.status h).trans hr)]
    exact hB.check (hB.tickTimer (hB.tickTimer (hB.snapshot h pre) .t0) .t1)
  · have hr' : s'.status ≠ .running := by rwa [hB.status h]
    rwa [complete_of_not_running pre hr, complete_of_not_running pre hr']

/-! #### Instructions, cycles and steps -/

/-- Every instruction answers related states alike. -/
theorem exec (i : Instr) : NextRelated R (exec i s) (exec i s') := by
  cases i with
  | trigger => exact .next (hB.emit h _)
  | ret =>
    simp only [Machine.exec, execRet, hB.lr h]
    exact .next (hB.setReg (hB.setPc h _) _ _)
  | timerSet k fn =>
    simp only [Machine.exec, execTimerSet, hB.timer h]
    split_ifs
    · exact .next (hB.setTimer h _ _)
    · exact .next (hB.setTimer h _ _)
    · exact .next (hB.setTimer h _ _)
    · exact .next (hB.warn h _)
  | triggerPos pos => exact .next (hB.emit h _)
  | jmp off8 =>
    simp only [Machine.exec, execJmp, hB.target h]
    exact .next (hB.setPc h _)
  | mov rd rs =>
    simp only [Machine.exec, execMov, hB.x h]
    exact .next (hB.setReg h _ _)
  | bl off10 =>
    simp only [Machine.exec, execBl, hB.target h, hB.pc h]
    exact .next (hB.setPc (hB.setReg h _ _) _)
  | domainSet dom =>
    have hhit : s'.info.domainHit dom = s.info.domainHit dom := by rw [hB.info h]
    simp only [Machine.exec, execDomainSet, hhit]
    split_ifs
    · exact .next (hB.emit (hB.setDomain h dom) _)
    · exact .next (hB.warn (hB.setDomain h dom) _)
  | display id =>
    simp only [Machine.exec, execDisplay, hB.info h]
    split_ifs
    · exact .next (hB.emit h _)
    · exact .next (hB.warn h _)
  | exec id =>
    simp only [Machine.exec, execExec, hB.info h]
    split_ifs
    · exact .next (hB.emit h _)
    · exact hB.raise h _ _ _
  | edgeDetect rd rs fn =>
    simp only [Machine.exec, execEdgeDetect, hB.curBit h, hB.oldBit h]
    split
    · exact .next (hB.setReg h _ _)
    · exact hB.raise h _ _ _
  | jmpc fn rs1 rs2 off8 =>
    simp only [Machine.exec, execJmpc, hB.jmpcHolds h, hB.target h]
    split
    · split_ifs
      · exact .next (hB.setPc h _)
      · exact .next h
    · exact hB.raise h _ _ _
  | and rd rs1 rs2 => exact hB.arithOp h .and rd rs1 rs2
  | or rd rs1 rs2 => exact hB.arithOp h .or rd rs1 rs2
  | xor rd rs1 rs2 => exact hB.arithOp h .xor rd rs1 rs2
  | redand rd rs1 rs2 => exact hB.arithOp h .redand rd rs1 rs2
  | redor rd rs1 rs2 => exact hB.arithOp h .redor rd rs1 rs2
  | redxor rd rs1 rs2 => exact hB.arithOp h .redxor rd rs1 rs2
  | concat rd rs1 rs2 => exact hB.arithOp h .concat rd rs1 rs2
  | isunk rd rs1 rs2 => exact hB.arithOp h .isunk rd rs1 rs2
  | add rd rs1 rs2 => exact hB.arithOp h .add rd rs1 rs2
  | sub rd rs1 rs2 => exact hB.arithOp h .sub rd rs1 rs2
  | bitSlice rd rs start stop =>
    simp only [Machine.exec, execBitSlice, hB.x h]
    split_ifs
    · exact hB.raise h _ _ _
    · exact .next (hB.setReg h _ _)
  | load rd saddr =>
    simp only [Machine.exec, execLoad, hB.info h]
    split
    · exact .next (hB.setReg h _ _)
    · exact hB.raise h _ _ _
  | movi rsv rd imm =>
    simp only [Machine.exec, execMovi]
    split_ifs
    · exact hB.raise h _ _ _
    · exact .next (hB.setReg h _ _)

theorem cycle (hf : fetch s' = fetch s) : NextRelated R (cycle s) (cycle s') := by
  simp only [Machine.cycle, hf, hB.pc h, hB.latch h]
  cases fetch s with
  | reject r => exact .next (hB.takeFault h _)
  | invalidArithFunc fn => exact .next (hB.arithFault h fn)
  | instr i =>
    obtain ⟨t, t', ht, ht', hR⟩ := hB.exec (hB.advance h i.width) i
    simp only [ht, ht', finish]
    exact .next (hB.complete hR _)

/-- A step from related states that fetch alike answers related states. -/
theorem step (hf : fetch s' = fetch s) {t : State} (ht : step s = .next t) :
    ∃ t', Machine.step s' = .next t' ∧ R t t' := by
  by_cases hr : s.status = .running
  · have hr' := (hB.status h).trans hr
    cases hl : s.dram.legal with
    | true =>
      rw [step_eq_cycle hr hl] at ht
      rw [step_eq_cycle hr' ((hB.legal h).trans hl)]
      exact (hB.cycle h hf).of_next ht
    | false => rw [step_of_illegal hr hl] at ht; cases ht
  · have hr' : s'.status ≠ .running := by rwa [hB.status h]
    rw [step_of_not_running hr] at ht
    cases ht
    exact ⟨s', step_of_not_running hr', h⟩

end Blind

/-! ### The word stored behind register 0 -/

/-- `s'` is `s` with `w` stored behind register 0. -/
def SameButStoredZero (w : Word) (s s' : State) : Prop := s' = s.withStoredZero w

theorem blind_storedZero (w : Word) : Blind (SameButStoredZero w) where
  getReg := by rintro s _ rfl i; exact s.withStoredZero_getReg w i
  pc := by rintro s _ rfl; rfl
  prev := by rintro s _ rfl; rfl
  timer := by rintro s _ rfl k; exact s.withStoredZero_timer w k
  status := by rintro s _ rfl; rfl
  info := by rintro s _ rfl; rfl
  legal := by rintro s _ rfl; rfl
  setReg := by rintro s _ rfl i v; exact s.setReg_withStoredZero w i v
  setPc := by rintro s _ rfl v; rfl
  setTimer := by rintro s _ rfl k r; exact s.setTimer_withStoredZero w k r
  setDomain := by rintro s _ rfl d; rfl
  emit := by rintro s _ rfl e; rfl
  warn := by rintro s _ rfl e; rfl
  setStatus := by rintro s _ rfl st; rfl
  snapshot := by rintro s _ rfl pre; rfl

/-- Settles O7: no instruction and no step can tell what is stored behind register 0. -/
theorem registerZeroReadsZero : Obligations.RegisterZeroReadsZero := by
  intro s v
  refine ⟨s.getReg_zero, State.getReg_zero _, s.getReg_zero, fun i t ht => ⟨t.getReg_zero, ?_⟩,
    fun t ht => ⟨t.getReg_zero, ?_⟩⟩
  · obtain ⟨_, ht', rfl⟩ := ((blind_storedZero v).exec (s := s) rfl i).of_next ht
    exact ht'
  · obtain ⟨_, ht', rfl⟩ := (blind_storedZero v).step (s := s) rfl rfl ht
    exact ht'

/-! ### The outputs -/

/-- `s'` is `s` but for its outputs and reserved state. -/
def SameButOutputs (s s' : State) : Prop :=
  ∃ domain counters trace, s' = { s with domain := domain, counters := counters, trace := trace }

theorem sameButOutputs_iff {s s' : State} : SameButOutputs s s' ↔ s.withoutOutputs = s'.withoutOutputs := by
  constructor
  · rintro ⟨_, _, _, rfl⟩
    rfl
  · intro h
    refine ⟨s'.domain, s'.counters, s'.trace, ?_⟩
    cases s
    cases s'
    simp only [State.withoutOutputs, State.mk.injEq] at h ⊢
    simp [h]

theorem blind_outputs : Blind SameButOutputs where
  getReg := by rintro s _ ⟨_, _, _, rfl⟩ i; rfl
  pc := by rintro s _ ⟨_, _, _, rfl⟩; rfl
  prev := by rintro s _ ⟨_, _, _, rfl⟩; rfl
  timer := by rintro s _ ⟨_, _, _, rfl⟩ k; cases k <;> rfl
  status := by rintro s _ ⟨_, _, _, rfl⟩; rfl
  info := by rintro s _ ⟨_, _, _, rfl⟩; rfl
  legal := by rintro s _ ⟨_, _, _, rfl⟩; rfl
  setReg := by
    rintro s _ ⟨d, c, tr, rfl⟩ i v
    refine ⟨d, c, tr, ?_⟩
    unfold State.setReg
    split_ifs <;> rfl
  setPc := by rintro s _ ⟨_, _, _, rfl⟩ v; exact ⟨_, _, _, rfl⟩
  setTimer := by rintro s _ ⟨_, _, _, rfl⟩ k r; cases k <;> exact ⟨_, _, _, rfl⟩
  setDomain := by rintro s _ ⟨_, _, _, rfl⟩ d; exact ⟨_, _, _, rfl⟩
  emit := by rintro s _ ⟨_, _, _, rfl⟩ e; exact ⟨_, _, _, rfl⟩
  warn := by rintro s _ ⟨_, _, _, rfl⟩ w; exact ⟨_, _, _, rfl⟩
  setStatus := by rintro s _ ⟨_, _, _, rfl⟩ st; exact ⟨_, _, _, rfl⟩
  snapshot := by rintro s _ ⟨_, _, _, rfl⟩ pre; exact ⟨_, _, _, rfl⟩

theorem SameButOutputs.fetch {s s' : State} (h : SameButOutputs s s') : fetch s' = fetch s := by
  obtain ⟨_, _, _, rfl⟩ := h
  rfl

/-- Settles O58: EXECUTE, TICK, CHECK and FETCH are blind to the outputs. -/
theorem outputsAreNeverRead : Obligations.OutputsAreNeverRead := by
  intro s s' t h ht
  have hR := sameButOutputs_iff.mpr h
  obtain ⟨t', ht', hR'⟩ := blind_outputs.step hR hR.fetch ht
  exact ⟨t', ht', sameButOutputs_iff.mp hR'⟩

/-! ### DRAM outside the fetch window -/

/-- `s'` is `s` with the contents `m`. -/
def SameButCells (m : Memory) (s s' : State) : Prop := s' = { s with dram := { s.dram with cells := m } }

theorem blind_cells (m : Memory) : Blind (SameButCells m) where
  getReg := by rintro s _ rfl i; rfl
  pc := by rintro s _ rfl; rfl
  prev := by rintro s _ rfl; rfl
  timer := by rintro s _ rfl k; cases k <;> rfl
  status := by rintro s _ rfl; rfl
  info := by rintro s _ rfl; rfl
  legal := by rintro s _ rfl; rfl
  setReg := by rintro s _ rfl i v; unfold State.setReg; split_ifs <;> rfl
  setPc := by rintro s _ rfl v; rfl
  setTimer := by rintro s _ rfl k r; cases k <;> rfl
  setDomain := by rintro s _ rfl d; rfl
  emit := by rintro s _ rfl e; rfl
  warn := by rintro s _ rfl w; rfl
  setStatus := by rintro s _ rfl st; rfl
  snapshot := by rintro s _ rfl pre; rfl

/-- FETCH reads no byte behind the eighth. -/
theorem SameButCells.fetch {s s' : State} {m : Memory} (h : SameButCells m s s')
    (hm : ∀ k, k < 8 → m.read (s.pc.toNat + k) = s.dram.cells.read (s.pc.toNat + k)) : fetch s' = fetch s := by
  subst h
  exact congrArg decode
    (Memory.readBytes_congr fun k hk => hm k (hk.trans_le (s.dram.available_le s.pc.toNat 8)))

/-- Settles O59: DRAM's contents are read by FETCH alone, and there in the window alone. -/
theorem stepReadsOnlyTheFetchWindow : Obligations.StepReadsOnlyTheFetchWindow := by
  intro s t m hm ht
  obtain ⟨_, ht', rfl⟩ := (blind_cells m).step rfl (SameButCells.fetch rfl hm) ht
  exact ht'

end Sys2Proof.Machine
end

section
/-! PROOFS. Who writes what: each part of the state has its own writers, and a write to register 0 is none. -/

namespace Sys2Proof.Machine

/-! ### Writers -/

/-- `r` is the destination register of `i`, an instruction that may write it. -/
def HasDest (i : Instr) (r : RegIdx) : Prop :=
  (∃ rs, i = .mov r rs) ∨ (∃ rs fn, i = .edgeDetect r rs fn) ∨ (∃ f a b, i = ArithFn.instr f r a b) ∨
    (∃ rs a b, i = .bitSlice r rs a b) ∨ (∃ k, i = .load r k) ∨ (∃ imm, i = .movi 0 r imm)

theorem hasDest_mov (rd rs : RegIdx) : HasDest (.mov rd rs) rd := .inl ⟨rs, rfl⟩

theorem hasDest_edgeDetect (rd rs : RegIdx) (fn : BitVec 3) : HasDest (.edgeDetect rd rs fn) rd :=
  .inr (.inl ⟨rs, fn, rfl⟩)

theorem hasDest_arith (f : ArithFn) (rd a b : RegIdx) : HasDest (f.instr rd a b) rd :=
  .inr (.inr (.inl ⟨f, a, b, rfl⟩))

theorem hasDest_bitSlice (rd rs : RegIdx) (start stop : BitVec 5) : HasDest (.bitSlice rd rs start stop) rd :=
  .inr (.inr (.inr (.inl ⟨rs, start, stop, rfl⟩)))

theorem hasDest_load (rd : RegIdx) (saddr : BitVec 24) : HasDest (.load rd saddr) rd :=
  .inr (.inr (.inr (.inr (.inl ⟨saddr, rfl⟩))))

theorem hasDest_movi (rd : RegIdx) (imm : BitVec 32) : HasDest (.movi 0 rd imm) rd :=
  .inr (.inr (.inr (.inr (.inr ⟨imm, rfl⟩))))

/-- From `s` to `t`, LR, `domain`, the enables and the general registers change only where `i` is a writer of theirs. -/
structure OwnWriters (i : Instr) (s t : State) : Prop where
  lr : t.getReg 16 ≠ s.getReg 16 → i = .ret ∨ ∃ o, i = .bl o
  domain : t.domain ≠ s.domain → ∃ d, i = .domainSet d
  enabled : ∀ k, (t.timer k).enabled ≠ (s.timer k).enabled → ∃ fn, i = .timerSet k fn
  x : ∀ r, t.x r ≠ s.x r → r ≠ 0 ∧ HasDest i r

/-- Where none of the four changes there is nothing to say. -/
theorem ownWriters_of_same (i : Instr) {s t : State} (hregs : t.regs = s.regs) (hdomain : t.domain = s.domain)
    (h0 : t.timer0 = s.timer0) (h1 : t.timer1 = s.timer1) : OwnWriters i s t where
  lr := fun h => absurd (State.getReg_congr hregs 16) h
  domain := fun h => absurd hdomain h
  enabled := fun k h => absurd (congrArg Timer.enabled (State.timer_congr h0 h1 k)) h
  x := fun r h => absurd (State.getReg_congr hregs (fieldReg r)) h

/-- A write of the destination register touches that register alone, and register 0 not at all. -/
theorem ownWriters_setX {i : Instr} {rd : RegIdx} (hd : HasDest i rd) (s : State) (v : Word) :
    OwnWriters i s (s.setX rd v) where
  lr := fun h => absurd ((s.setX_writes rd v).others lrIdx (fieldReg_ne_lr rd).symm) h
  domain := fun h => absurd (s.setX_domain rd v) h
  enabled := fun k h => absurd (congrArg Timer.enabled (s.setReg_timer (fieldReg rd) v k)) h
  x := fun r h => by
    by_cases hr : r = rd
    · subst hr
      refine ⟨?_, hd⟩
      rintro rfl
      exact h rfl
    · exact absurd ((s.setX_writes rd v).others (fieldReg r) fun he => hr (fieldReg_injective he)) h

/-- A write of LR touches no general register. -/
theorem State.setLr_x (s : State) (v : Word) (r : RegIdx) : (s.setLr v).x r = s.x r :=
  (s.setReg_writes lrIdx v).others (fieldReg r) (fieldReg_ne_lr r)

/-- BL and RET may write LR and the pc. -/
theorem ownWriters_link {i : Instr} (hi : i = .ret ∨ ∃ o, i = .bl o) {s t : State} (hx : ∀ r, t.x r = s.x r)
    (hdomain : t.domain = s.domain) (h0 : t.timer0 = s.timer0) (h1 : t.timer1 = s.timer1) : OwnWriters i s t where
  lr := fun _ => hi
  domain := fun h => absurd hdomain h
  enabled := fun k h => absurd (congrArg Timer.enabled (State.timer_congr h0 h1 k)) h
  x := fun r h => absurd (hx r) h

/-- TIMER_SET touches the timer it names alone. -/
theorem ownWriters_setTimer (k : TimerId) (fn : BitVec 2) (s : State) (r : Timer) :
    OwnWriters (.timerSet k fn) s (s.setTimer k r) where
  lr := fun h => absurd (State.getReg_congr (s.setTimer_regs k r) 16) h
  domain := fun h => absurd (s.setTimer_domain k r) h
  enabled := fun j h => by
    by_cases hj : j = k
    · exact ⟨fn, by rw [hj]⟩
    · exact absurd (by rw [State.timer_setTimer, if_neg hj]) h
  x := fun q h => absurd (State.getReg_congr (s.setTimer_regs k r) (fieldReg q)) h

/-- DOMAIN_SET touches `domain` alone. -/
theorem ownWriters_domainSet (dom : BitVec 8) {s t : State} (hregs : t.regs = s.regs) (h0 : t.timer0 = s.timer0)
    (h1 : t.timer1 = s.timer1) : OwnWriters (.domainSet dom) s t :=
  { ownWriters_of_same (t := { t with domain := s.domain }) (.domainSet dom) hregs rfl h0 h1 with
    domain := fun _ => ⟨dom, rfl⟩ }

/-- Every instruction answers a next state in which only what it is a writer of has changed. -/
theorem exec_ownWriters (i : Instr) (s : State) : ∃ t, exec i s = .next t ∧ OwnWriters i s t := by
  have same (t : State) (h1 : t.regs = s.regs) (h2 : t.domain = s.domain) (h3 : t.timer0 = s.timer0)
      (h4 : t.timer1 = s.timer1) : ∃ u, Host.Outcome.next t = (.next u : Host.Outcome State Fault Refusal) ∧
      OwnWriters i s u := ⟨t, rfl, ownWriters_of_same i h1 h2 h3 h4⟩
  have dest {rd : RegIdx} (hd : HasDest i rd) (v : Word) :
      ∃ u, Host.Outcome.next (s.setX rd v) = (.next u : Host.Outcome State Fault Refusal) ∧ OwnWriters i s u :=
    ⟨_, rfl, ownWriters_setX hd s v⟩
  cases i with
  | trigger => exact same _ rfl rfl rfl rfl
  | ret =>
    refine ⟨_, rfl, ownWriters_link (.inl rfl) (State.setLr_x _ _) ?_ ?_ ?_⟩ <;> simp
  | timerSet k fn =>
    simp only [exec, execTimerSet]
    split_ifs
    · exact ⟨_, rfl, ownWriters_setTimer k fn s _⟩
    · exact ⟨_, rfl, ownWriters_setTimer k fn s _⟩
    · exact ⟨_, rfl, ownWriters_setTimer k fn s _⟩
    · exact same _ rfl rfl rfl rfl
  | triggerPos pos => exact same _ rfl rfl rfl rfl
  | jmp off8 => exact same _ rfl rfl rfl rfl
  | mov rd rs => exact dest (hasDest_mov rd rs) _
  | bl off10 =>
    refine ⟨_, rfl, ownWriters_link (.inr ⟨off10, rfl⟩) (s.setLr_x _) ?_ ?_ ?_⟩ <;> simp
  | domainSet dom =>
    simp only [exec, execDomainSet]
    split_ifs
    · exact ⟨_, rfl, ownWriters_domainSet dom rfl rfl rfl⟩
    · exact ⟨_, rfl, ownWriters_domainSet dom rfl rfl rfl⟩
  | display id =>
    simp only [exec, execDisplay]
    split_ifs
    · exact same _ rfl rfl rfl rfl
    · exact same _ rfl rfl rfl rfl
  | exec id =>
    simp only [exec, execExec]
    split_ifs
    · exact same _ rfl rfl rfl rfl
    · exact same _ rfl rfl rfl rfl
  | edgeDetect rd rs fn =>
    simp only [exec, execEdgeDetect]
    split
    · exact dest (hasDest_edgeDetect rd rs fn) _
    · exact same _ rfl rfl rfl rfl
  | jmpc fn rs1 rs2 off8 =>
    simp only [exec, execJmpc]
    split
    · split_ifs
      · exact same _ rfl rfl rfl rfl
      · exact same _ rfl rfl rfl rfl
    · exact same _ rfl rfl rfl rfl
  | and rd rs1 rs2 => exact dest (hasDest_arith .and rd rs1 rs2) _
  | or rd rs1 rs2 => exact dest (hasDest_arith .or rd rs1 rs2) _
  | xor rd rs1 rs2 => exact dest (hasDest_arith .xor rd rs1 rs2) _
  | redand rd rs1 rs2 => exact dest (hasDest_arith .redand rd rs1 rs2) _
  | redor rd rs1 rs2 => exact dest (hasDest_arith .redor rd rs1 rs2) _
  | redxor rd rs1 rs2 => exact dest (hasDest_arith .redxor rd rs1 rs2) _
  | concat rd rs1 rs2 => exact dest (hasDest_arith .concat rd rs1 rs2) _
  | isunk rd rs1 rs2 => exact dest (hasDest_arith .isunk rd rs1 rs2) _
  | add rd rs1 rs2 => exact dest (hasDest_arith .add rd rs1 rs2) _
  | sub rd rs1 rs2 => exact dest (hasDest_arith .sub rd rs1 rs2) _
  | bitSlice rd rs start stop =>
    simp only [exec, execBitSlice]
    split_ifs
    · exact same _ rfl rfl rfl rfl
    · exact dest (hasDest_bitSlice rd rs start stop) _
  | load rd saddr =>
    simp only [exec, execLoad]
    split
    · exact dest (hasDest_load rd saddr) _
    · exact same _ rfl rfl rfl rfl
  | movi rsv rd imm =>
    simp only [exec, execMovi]
    split_ifs with hrsv
    · exact same _ rfl rfl rfl rfl
    · obtain rfl : rsv = 0#1 := by bv_omega
      exact dest (hasDest_movi rd imm) _

/-- Settles O55, instruction by instruction. -/
theorem eachStateHasOnlyItsOwnWriters : Obligations.EachStateHasOnlyItsOwnWriters := by
  intro i s t ht
  obtain ⟨u, hu, hlr, hdomain, henabled, hx⟩ := exec_ownWriters i s
  rw [ht] at hu
  cases hu
  exact ⟨hlr, hdomain, henabled, hx⟩

/-! ### Destination register 0 -/

theorem exec_edgeDetect_zero (rs : RegIdx) {fn : BitVec 3} (hfn : fn ≠ 7#3) (s : State) :
    exec (.edgeDetect 0 rs fn) s = .next s := by
  obtain ⟨f, hf⟩ := Option.ne_none_iff_exists'.mp (mt (edgeFn?_eq_none_iff fn).mp hfn)
  simp only [exec, execEdgeDetect, hf]
  exact congrArg _ (s.setX_zero _)

theorem exec_bitSlice_zero (rs : RegIdx) {start stop : BitVec 5} (h : start.toNat ≤ stop.toNat) (s : State) :
    exec (.bitSlice 0 rs start stop) s = .next s := by
  rw [exec, execBitSlice, if_neg (Nat.not_lt.mpr h)]
  exact congrArg _ (s.setX_zero _)

theorem exec_bitSlice_fault (rd rs : RegIdx) {start stop : BitVec 5} (h : start.toNat > stop.toNat) (s : State) :
    exec (.bitSlice rd rs start stop) s
      = .next { s with status := faultedAt (s.pc - 4#32) .invalidBitRange 0xD#4 .w4 (.bitRange start stop) } := by
  rw [exec, execBitSlice, if_pos h]
  rfl

theorem exec_load_zero {k : BitVec 24} {v : Word} {s : State} (h : s.info.signal (k.setWidth 32) = some v) :
    exec (.load 0 k) s = .next s := by
  simp only [exec, execLoad, signalKey, h]
  exact congrArg _ (s.setX_zero _)

theorem exec_load_fault (rd : RegIdx) {k : BitVec 24} {s : State} (h : s.info.signal (k.setWidth 32) = none) :
    exec (.load rd k) s
      = .next { s with status := faultedAt (s.pc - 4#32) .unknownSignal 0xE#4 .w4 (.signalKey (k.setWidth 32)) } := by
  simp only [exec, execLoad, signalKey, h]
  rfl

/-- Settles O8: the register write itself does nothing, and a fault is raised before it. -/
theorem writeToRegisterZeroIsDiscarded : Obligations.WriteToRegisterZeroIsDiscarded := by
  intro s r a b
  exact ⟨s.setReg_zero, rfl, fun _ hfn => exec_edgeDetect_zero r hfn s, rfl, rfl, rfl, rfl, rfl, rfl, rfl, rfl, rfl,
    rfl, rfl, fun _ _ h => exec_bitSlice_zero r h s, fun _ _ h => exec_bitSlice_fault 0 r h s, fun _ _ => exec_load_zero,
    fun _ => exec_load_fault 0, fun _ => rfl, fun _ => rfl⟩

end Sys2Proof.Machine
end

section
/-! PROOFS. The bus and the loaded image: what a load answers, what it sees after a store, which accesses fail
(spec/20_memory.md R61 to R65). -/

namespace Sys2Proof.Machine

/-! ### One equation for each case of a bus access -/

section Access

variable {d : Dram} {a n : Nat} (hn : n ∈ [1, 2, 4, 8])
include hn

theorem Dram.busLoad_of_inBounds (h : d.inBounds a n = true) :
    d.busLoad a (8 * n) = .ok (beValue (d.cells.readBytes a n)) := by
  rw [Dram.busLoad, busBytes?_mul hn]
  exact if_pos h

theorem Dram.busStore_of_inBounds (h : d.inBounds a n = true) (v : Nat) :
    d.busStore a (8 * n) v = .ok { d with cells := d.cells.writeBytes a (beBytes n v) } := by
  rw [Dram.busStore, busBytes?_mul hn]
  exact if_pos h

theorem Dram.busLoad_of_not_inBounds (h : ¬d.inBounds a n = true) :
    d.busLoad a (8 * n) = .error (.outOfBounds a n) := by
  rw [Dram.busLoad, busBytes?_mul hn]
  exact if_neg h

theorem Dram.busStore_of_not_inBounds (h : ¬d.inBounds a n = true) (v : Nat) :
    d.busStore a (8 * n) v = .error (.outOfBounds a n) := by
  rw [Dram.busStore, busBytes?_mul hn]
  exact if_neg h

end Access

theorem busBytes?_eq_none {bits : Nat} (h8 : bits ≠ 8) (h16 : bits ≠ 16) (h32 : bits ≠ 32) (h64 : bits ≠ 64) :
    busBytes? bits = none :=
  if_neg (by simp [h8, h16, h32, h64])

theorem Dram.busLoad_of_invalidWidth (d : Dram) (a : Nat) {bits : Nat} (h : busBytes? bits = none) :
    d.busLoad a bits = .error (.invalidWidth bits) := by
  rw [Dram.busLoad, h]

theorem Dram.busStore_of_invalidWidth (d : Dram) (a v : Nat) {bits : Nat} (h : busBytes? bits = none) :
    d.busStore a bits v = .error (.invalidWidth bits) := by
  rw [Dram.busStore, h]

/-- Settles O5: the width is checked first, then the range. -/
theorem busRejectsWidthAndRange : Obligations.BusRejectsWidthAndRange := by
  intro d a v
  constructor
  · intro bits h8 h16 h32 h64
    have hw := busBytes?_eq_none h8 h16 h32 h64
    exact ⟨d.busLoad_of_invalidWidth a hw, d.busStore_of_invalidWidth a v hw⟩
  · intro n hn hout
    have h : ¬d.inBounds a n = true := by
      rw [Dram.inBounds_iff]
      omega
    exact ⟨Dram.busLoad_of_not_inBounds hn h, Dram.busStore_of_not_inBounds hn h v⟩

/-! ### The value of a load -/

/-- The big-endian value of a run of bytes, as a sum over its addresses. -/
theorem beValue_readBytes (m : Memory) (a n : Nat) :
    beValue (m.readBytes a n) = ∑ k ∈ Finset.range n, (m.read (a + k)).toNat * 256 ^ (n - 1 - k) := by
  induction n generalizing a with
  | zero => rfl
  | succ n ih =>
    rw [Memory.readBytes, beValue_cons, ih, Memory.length_readBytes, Finset.sum_range_succ', Nat.add_comm]
    congr 1
    refine Finset.sum_congr rfl fun k _ => ?_
    rw [Nat.add_right_comm, Nat.add_assoc, show n + 1 - 1 - (k + 1) = n - 1 - k by omega]

/-- Settles O3, by induction on the run of bytes the load composes. -/
theorem busLoadIsBigEndian : Obligations.BusLoadIsBigEndian := by
  intro d a n hn h
  rw [Dram.busLoad_of_inBounds hn h, beValue_readBytes]

/-! ### A load after a store -/

/-- The bytes read inside a stored value are those of the value shifted down to the last of them. -/
theorem Memory.readBytes_writeBytes_beBytes {mem : Memory} (hmem : mem.wf) (a v : Nat) {n j m : Nat}
    (hjm : j + m ≤ n) :
    (mem.writeBytes a (beBytes n v)).readBytes (a + j) m = beBytes m (v / 256 ^ (n - j - m)) := by
  refine Memory.readBytes_eq (length_beBytes _ _) fun k hk => ?_
  have hlen := length_beBytes n v
  have hexp : n - 1 - (j + k) = n - j - m + (m - 1 - k) := by omega
  rw [Memory.read_writeBytes hmem, if_pos (by omega), show a + j + k - a = j + k by omega,
    getD_beBytes _ _ _ _ (by omega), getD_beBytes _ _ _ _ hk, Nat.div_div_eq_div_mul, ← Nat.pow_add, hexp]

/-- A load inside the bytes just stored, of any legal width. -/
theorem Dram.busLoad_writeBytes {d : Dram} (hwf : d.cells.wf) {a n : Nat} (h : d.inBounds a n = true) (v : Nat)
    {j m : Nat} (hm : m ∈ [1, 2, 4, 8]) (hjm : j + m ≤ n) :
    Dram.busLoad { d with cells := d.cells.writeBytes a (beBytes n v) } (a + j) (8 * m)
      = .ok (v / 256 ^ (n - j - m) % 256 ^ m) := by
  have hin : d.inBounds (a + j) m = true := by
    rw [Dram.inBounds_iff] at h ⊢
    omega
  rw [Dram.busLoad_of_inBounds hm, Memory.readBytes_writeBytes_beBytes hwf a v hjm, beValue_beBytes]
  exact hin

/-- Settles O4: the mixed-width view, of which the round-trip law is the case of the same width. -/
theorem busStoreThenLoadSeesTheBytes : Obligations.BusStoreThenLoadSeesTheBytes := by
  intro d a n v hwf hn h
  have hstore := Dram.busStore_of_inBounds hn h v
  refine ⟨_, hstore, rfl, rfl, Dram.wf_busStore hwf hstore, ?_,
    fun _ _ hm hjm => Dram.busLoad_writeBytes hwf h v hm hjm, fun x hx => ?_⟩
  · simpa [Nat.pow_mul] using Dram.busLoad_writeBytes hwf h v (j := 0) hn (by omega)
  · rw [Memory.read_writeBytes hwf, length_beBytes, if_neg (by omega)]

/-! ### The image -/

theorem Memory.read_ofImage (base : Word) (size : Nat) (image : List Byte) (a : Nat) :
    (Memory.ofImage base size image).read a =
      if base.toNat ≤ a ∧ a < base.toNat + size then image.getD (a - base.toNat) Config.initFill
      else Config.initFill := by
  rw [Memory.ofImage, Memory.read_writeBytes Memory.wf_nil, List.length_take]
  by_cases hin : base.toNat ≤ a ∧ a < base.toNat + size
  · rw [if_pos hin]
    by_cases hcover : a - base.toNat < image.length
    · rw [if_pos (by omega), List.getD_eq_getElem?_getD, List.getElem?_take_of_lt (by omega),
        List.getD_eq_getElem?_getD]
    · rw [if_neg (by omega), List.getD_eq_default _ _ (by omega)]
      rfl
  · rw [if_neg hin, if_neg (by omega)]
    rfl

/-- Settles O2: a byte of DRAM is the image's, or the fill behind the image's end. -/
theorem imageIsLoadedVerbatim : Obligations.ImageIsLoadedVerbatim :=
  fun p image a => Memory.read_ofImage p.memBase p.memSize image a

end Sys2Proof.Machine
end

section
/-! PROOFS. The encoding: what `encode` writes, `decode` reads back; its words are those of the formulas; what a decoded
instruction says about its bytes. -/

namespace Sys2Proof

/-! ### The round trip -/

section RoundTrip
variable {i : Instr} (rest : List Byte)

/-- An instruction of width 2, MOV apart, whose word carries its opcode and its operands. -/
theorem decode_encode_word2 {o : TwoByteOp} {v : BitVec 16} (hc : i.opClass = .two o) (he : encode i = bytes2 v)
    (hl : lookAhead i = []) (hop : Layout.op2.get v = i.op) (hd : decodeTwo o v = i) :
    decode (encode i ++ lookAhead i ++ rest) = .instr i := by
  rw [Instr.op, hc] at hop
  rw [he, hl, List.append_nil, decode_word2 v rest hop, hd]

/-- An instruction of width 4 whose word carries its opcode and its operands. -/
theorem decode_encode_word4 {o : FourByteOp} {v : BitVec 32} (hc : i.opClass = .four o) (he : encode i = bytes4 v)
    (hl : lookAhead i = []) (hop : Layout.op4.get v = i.op) (hd : decodeFour o v = .instr i) :
    decode (encode i ++ lookAhead i ++ rest) = .instr i := by
  rw [Instr.op, hc] at hop
  rw [he, hl, List.append_nil, decode_word4 v rest hop, hd]

end RoundTrip

theorem decodeFour_encodeArith (f : ArithFn) (rd rs1 rs2 : RegIdx) :
    decodeFour .arithOp (encodeArith f rd rs1 rs2) = .instr (f.instr rd rs1 rs2) := by
  simp (disch := decide) only [decodeFour, encodeArith, Field.get_or, Field.get_put, Field.get_put_apart,
    BitVec.or_zero, BitVec.zero_or, arithFn?_arithSelector]

/-- The ten instructions of ARITH_OP. -/
theorem decode_encode_arith (f : ArithFn) (rd rs1 rs2 : RegIdx) (rest : List Byte) :
    decode (encode (f.instr rd rs1 rs2) ++ lookAhead (f.instr rd rs1 rs2) ++ rest) = .instr (f.instr rd rs1 rs2) := by
  refine decode_encode_word4 rest (ArithFn.opClass_instr f rd rs1 rs2) (ArithFn.encode_instr f rd rs1 rs2)
    (by cases f <;> rfl) ?_ (decodeFour_encodeArith f rd rs1 rs2)
  rw [Instr.op, ArithFn.opClass_instr, encodeArith]
  simp (disch := decide) only [Field.get_or, Field.get_put, Field.get_put_apart, BitVec.or_zero]

/-! #### The move family -/

/-- A field read inside a wider one that was put: `f'` is the field `f` counted from the lowest bit of `g`. -/
theorem Field.get_put_inside {w w' n : Nat} {f : Field w} {g : Field w'} (f' : Field w) (hlo : f.lo = g.lo + f'.lo)
    (hf : f'.lo + w ≤ w') (hg : g.lo + w' ≤ n) (v : BitVec w') : f.get (g.put n v) = f'.get v := by
  apply BitVec.eq_of_getLsbD_eq
  intro k hk
  have hhigh : g.lo + (f'.lo + k) < n := by omega
  simp [Field.get, Field.put, hlo, hk, hhigh, Nat.add_assoc]

/-- A word with six zero bytes behind it is the first half of the move family's window
(spec/30_encoding.md R83, R94). -/
theorem bytes2_append_zeros (v : BitVec 16) :
    bytes2 v ++ List.replicate 6 0#8 = bytes8 (Layout.windowHalf.put 64 v) := by
  have hfirst : (Layout.windowHalf.put 64 v).extractLsb' 56 8 = v.extractLsb' 8 8 :=
    Field.get_put_inside (f := ⟨56⟩) ⟨8⟩ rfl (by decide) (by decide) v
  have hsecond : (Layout.windowHalf.put 64 v).extractLsb' 48 8 = v.extractLsb' 0 8 :=
    Field.get_put_inside (f := ⟨48⟩) ⟨0⟩ rfl (by decide) (by decide) v
  have hzero (lo : Nat) (h : lo + 8 ≤ 48) : (Layout.windowHalf.put 64 v).extractLsb' lo 8 = 0#8 :=
    Field.get_put_of_disjoint ⟨lo⟩ Layout.windowHalf (.inl h) v
  simp (disch := decide) only [bytes8, hfirst, hsecond, hzero]
  rfl

/-- A word with the move family's opcode and MOV's discriminator, six zero bytes behind it, is a MOV. -/
theorem decode_mov_word {v : BitVec 16} (rest : List Byte) (hop : Layout.op2.get v = opNibble .move)
    (hd : Layout.movD.get v = 1#1) :
    decode (bytes2 v ++ List.replicate 6 0#8 ++ rest) = .instr (.mov (Layout.movRd.get v) (Layout.movRs.get v)) := by
  have hop8 : Layout.op8.get (Layout.windowHalf.put 64 v) = opNibble .move :=
    (Field.get_put_inside Layout.op2 rfl (by decide) (by decide) v).trans hop
  have hd8 : Layout.windowD.get (Layout.windowHalf.put 64 v) = 1#1 :=
    (Field.get_put_inside Layout.movD rfl (by decide) (by decide) v).trans hd
  have hrest : Layout.windowRest.get (Layout.windowHalf.put 64 v) = 0#48 :=
    Field.get_put_of_disjoint _ _ (.inl (by decide)) v
  rw [bytes2_append_zeros, decode_word8 _ rest hop8, decodeMove, if_pos ⟨hd8, hrest⟩, Field.get_put _ (by decide)]

theorem decode_encode_mov (rd rs : RegIdx) (rest : List Byte) :
    decode (encode (.mov rd rs) ++ lookAhead (.mov rd rs) ++ rest) = .instr (.mov rd rs) := by
  rw [encode, lookAhead, decode_mov_word rest] <;>
    simp (disch := decide) only [Instr.op, Instr.opClass, Field.get_or, Field.get_put, Field.get_put_apart,
      BitVec.or_zero, BitVec.zero_or]

/-- W[47:0] of a MOVI's window holds the immediate's low 25 bits above 23 unused ones (spec/30_encoding.md R103). -/
theorem windowRest_put_moviImm (imm : BitVec 32) :
    Layout.windowRest.get (Layout.moviImm.put 64 imm) = Field.put (w := 25) ⟨23⟩ 48 (imm.extractLsb' 0 25) := by
  apply BitVec.eq_of_getLsbD_eq
  intro k hk
  have hwindow : k < 64 := by omega
  have hlow : k - 23 < 25 := by omega
  simp [Field.get, Field.put, Layout.windowRest, Layout.moviImm, hk, hwindow, hlow]

theorem windowRest_put_moviImm_eq_zero_iff (imm : BitVec 32) :
    Layout.windowRest.get (Layout.moviImm.put 64 imm) = 0#48 ↔ imm.extractLsb' 0 25 = 0#25 := by
  rw [windowRest_put_moviImm]
  constructor
  · intro h
    rw [← Field.get_put ⟨23⟩ (by decide : 23 + 25 ≤ 48) (imm.extractLsb' 0 25), h]
    rfl
  · intro h
    rw [h]
    rfl

theorem decode_encode_movi {rsv : BitVec 1} {rd : RegIdx} {imm : BitVec 32} (rest : List Byte)
    (h : (Instr.movi rsv rd imm).wellFormed = true) :
    decode (encode (.movi rsv rd imm) ++ lookAhead (.movi rsv rd imm) ++ rest) = .instr (.movi rsv rd imm) := by
  have hmovi : ¬ (rsv = 1#1 ∧ Layout.windowRest.get (Layout.moviImm.put 64 imm) = 0#48) := by
    rw [windowRest_put_moviImm_eq_zero_iff]
    rintro ⟨rfl, himm⟩
    simp [Instr.wellFormed, himm] at h
  have hd : Layout.windowD = Layout.moviRsv := rfl
  rw [encode, lookAhead, List.append_nil, decode_word8 _ rest]
  · simp (disch := decide) only [decodeMove, hd, Field.get_or, Field.get_put, Field.get_put_apart, BitVec.or_zero,
      BitVec.zero_or, if_neg hmovi]
  · simp (disch := decide) only [Instr.op, Instr.opClass, Field.get_or, Field.get_put, Field.get_put_apart,
      BitVec.or_zero]

/-- Settles O32, width by width: each field is read from where it was put. -/
theorem decodeOfEncodeIsTheInstruction : Obligations.DecodeOfEncodeIsTheInstruction := by
  intro i rest hwf
  cases i with
  | trigger | ret => rfl
  | timerSet tid fn =>
    refine (decode_word1 (o := .timerSet) _ rest ?_).trans ?_ <;>
      simp (disch := decide) only [decodeOne, Instr.op, Instr.opClass, Field.get_or, Field.get_put,
        Field.get_put_apart, BitVec.or_zero, BitVec.zero_or, TimerId.ofBit_bit]
  | triggerPos _ | jmp _ | bl _ | domainSet _ | display _ | exec _ | edgeDetect _ _ _ =>
    refine decode_encode_word2 rest rfl rfl rfl ?_ ?_ <;>
      simp (disch := decide) only [decodeTwo, Field.get_or, Field.get_put, Field.get_put_apart, BitVec.or_zero,
        BitVec.zero_or]
  | mov rd rs => exact decode_encode_mov rd rs rest
  | jmpc _ _ _ _ | bitSlice _ _ _ _ | load _ _ =>
    refine decode_encode_word4 rest rfl rfl rfl ?_ ?_ <;>
      simp (disch := decide) only [decodeFour, Field.get_or, Field.get_put, Field.get_put_apart, BitVec.or_zero,
        BitVec.zero_or]
  | and rd rs1 rs2 => exact decode_encode_arith .and rd rs1 rs2 rest
  | or rd rs1 rs2 => exact decode_encode_arith .or rd rs1 rs2 rest
  | xor rd rs1 rs2 => exact decode_encode_arith .xor rd rs1 rs2 rest
  | redand rd rs1 rs2 => exact decode_encode_arith .redand rd rs1 rs2 rest
  | redor rd rs1 rs2 => exact decode_encode_arith .redor rd rs1 rs2 rest
  | redxor rd rs1 rs2 => exact decode_encode_arith .redxor rd rs1 rs2 rest
  | concat rd rs1 rs2 => exact decode_encode_arith .concat rd rs1 rs2 rest
  | isunk rd rs1 rs2 => exact decode_encode_arith .isunk rd rs1 rs2 rest
  | add rd rs1 rs2 => exact decode_encode_arith .add rd rs1 rs2 rest
  | sub rd rs1 rs2 => exact decode_encode_arith .sub rd rs1 rs2 rest
  | movi rsv rd imm => exact decode_encode_movi rest hwf

/-! ### The words of the encoding formulas -/

/-- The word `a` has the value `val`: fields put one below the other, the last of them at bit `lo`. -/
structure Assembled {n : Nat} (a : BitVec n) (lo val : Nat) : Prop where
  toNat : a.toNat = val
  dvd : 2 ^ lo ∣ val
  bound : lo ≤ n

section Assembled
variable {n w lo val : Nat} {a : BitVec n}

theorem assembled_put (f : Field w) (v : BitVec w) (h : f.lo + w ≤ n) :
    Assembled (f.put n v) f.lo (v.toNat * 2 ^ f.lo) :=
  ⟨Field.toNat_put f v h, Nat.dvd_mul_left _ _, by omega⟩

/-- One more field, put below those already there, adds its value. -/
theorem Assembled.or_put (ha : Assembled a lo val) (f : Field w) (v : BitVec w) (hlo : f.lo + w ≤ lo := by decide) :
    Assembled (a ||| f.put n v) f.lo (val + v.toNat * 2 ^ f.lo) where
  toNat := by rw [Field.toNat_or_put a f v (hlo.trans ha.bound) lo hlo (ha.toNat ▸ ha.dvd), ha.toNat]
  dvd := Nat.dvd_add ((Nat.pow_dvd_pow 2 (by omega)).trans ha.dvd) (Nat.dvd_mul_left _ _)
  bound := (Nat.le_of_add_right_le hlo).trans ha.bound

theorem Assembled.beValue_bytes2 {a : BitVec 16} (ha : Assembled a lo val) : Machine.beValue (bytes2 a) = val :=
  (Machine.beValue_bytes2 a).trans ha.toNat

theorem Assembled.beValue_bytes4 {a : BitVec 32} (ha : Assembled a lo val) : Machine.beValue (bytes4 a) = val :=
  (Machine.beValue_bytes4 a).trans ha.toNat

theorem Assembled.beValue_bytes8 {a : BitVec 64} (ha : Assembled a lo val) : Machine.beValue (bytes8 a) = val :=
  (Machine.beValue_bytes8 a).trans ha.toNat

end Assembled

/-! Words that hold their opcode alone (spec/30_encoding.md R80). -/

theorem assembled_op2 (op : BitVec 4) : Assembled (Layout.op2.put 16 op) 12 (op.toNat * 2 ^ 12) :=
  assembled_put _ op (by decide)

theorem assembled_op4 (op : BitVec 4) : Assembled (Layout.op4.put 32 op) 28 (op.toNat * 2 ^ 28) :=
  assembled_put _ op (by decide)

theorem assembled_op8 (op : BitVec 4) : Assembled (Layout.op8.put 64 op) 60 (op.toNat * 2 ^ 60) :=
  assembled_put _ op (by decide)

theorem arithSelector_toNat (f : ArithFn) : (arithSelector f).toNat = Machine.arithNumber f := by cases f <;> rfl

theorem beValue_encode_arith (f : ArithFn) (rd rs1 rs2 : RegIdx) :
    Machine.beValue (encode (f.instr rd rs1 rs2)) = 0xC0000000 + Machine.arithNumber f * 2 ^ 24 + rd.toNat * 2 ^ 20
      + rs1.toNat * 2 ^ 16 + rs2.toNat * 2 ^ 12 := by
  rw [ArithFn.encode_instr, ← arithSelector_toNat]
  exact (((((assembled_op4 0xC#4).or_put Layout.arithFn (arithSelector f)).or_put Layout.arithRd rd).or_put
    Layout.arithRs1 rs1).or_put Layout.arithRs2 rs2).beValue_bytes4

/-- Settles O33: each word is its opcode with the fields put below it, from the top down. -/
theorem encoderWritesTheFormulas : Obligations.EncoderWritesTheFormulas := by
  refine ⟨rfl, rfl, by decide, by decide, fun p => ?triggerPos, fun o => ?jmp, fun rd rs => ?mov, fun o => ?bl,
    fun d => ?domainSet, fun id => ?display, fun id => ?exec, fun rd rs f => ?edgeDetect, fun f a b o => ?jmpc,
    beValue_encode_arith, fun rd rs a b => ?bitSlice, fun rd k => ?load, fun rd imm => ?movi⟩
  case triggerPos => exact ((assembled_op2 0x3#4).or_put Layout.triggerPos p).beValue_bytes2
  case jmp => exact ((assembled_op2 0x4#4).or_put Layout.jmpOff o).beValue_bytes2
  case mov =>
    exact ((((assembled_op2 0x5#4).or_put Layout.movD 1#1).or_put Layout.movRd rd).or_put
      Layout.movRs rs).beValue_bytes2
  case bl => exact ((assembled_op2 0x6#4).or_put Layout.blOff o).beValue_bytes2
  case domainSet => exact ((assembled_op2 0x7#4).or_put Layout.domain d).beValue_bytes2
  case display => exact ((assembled_op2 0x8#4).or_put Layout.lookupId id).beValue_bytes2
  case exec => exact ((assembled_op2 0x9#4).or_put Layout.lookupId id).beValue_bytes2
  case edgeDetect =>
    exact ((((assembled_op2 0xA#4).or_put Layout.edgeRd rd).or_put Layout.edgeRs rs).or_put
      Layout.edgeFn f).beValue_bytes2
  case jmpc =>
    exact (((((assembled_op4 0xB#4).or_put Layout.jmpcFn f).or_put Layout.jmpcRs1 a).or_put Layout.jmpcRs2 b).or_put
      Layout.jmpcOff o).beValue_bytes4
  case bitSlice =>
    exact (((((assembled_op4 0xD#4).or_put Layout.sliceRd rd).or_put Layout.sliceRs rs).or_put
      Layout.sliceStart a).or_put Layout.sliceEnd b).beValue_bytes4
  case load =>
    have h := (((assembled_op4 0xE#4).or_put Layout.loadRd rd).or_put Layout.loadAddr k).beValue_bytes4
    exact h.trans (congrArg _ (Nat.mul_one _))
  case movi =>
    exact ((((assembled_op8 0x5#4).or_put Layout.moviRsv 0#1).or_put Layout.moviRd rd).or_put
      Layout.moviImm imm).beValue_bytes8

/-! ### What a decoded instruction says about its bytes -/

theorem opClass_decodeOne (o : OneByteOp) (v : BitVec 8) : (decodeOne o v).opClass = .one o := by cases o <;> rfl

theorem opClass_decodeTwo (o : TwoByteOp) (v : BitVec 16) : (decodeTwo o v).opClass = .two o := by cases o <;> rfl

theorem opClass_decodeMove (v : BitVec 64) : (decodeMove v).opClass = .move := by
  unfold decodeMove; split <;> rfl

/-- A four-byte word is an instruction of its opcode, or ARITH_OP with an invalid function (spec/30_encoding.md R105,
spec/43_width4.md R201). -/
theorem decodeFour_cases (o : FourByteOp) (v : BitVec 32) :
    (∃ i, decodeFour o v = .instr i ∧ i.opClass = .four o) ∨
    (o = .arithOp ∧ ∃ fn, decodeFour o v = .invalidArithFunc fn ∧ 10 ≤ fn.toNat) := by
  cases o with
  | jmpc | bitSlice | load => exact .inl ⟨_, rfl, rfl⟩
  | arithOp =>
    cases hf : arithFn? (Layout.arithFn.get v) with
    | some f => exact .inl ⟨_, by simp only [decodeFour, hf]; rfl, ArithFn.opClass_instr f _ _ _⟩
    | none => exact .inr ⟨rfl, _, by simp only [decodeFour, hf], (arithFn?_eq_none_iff _).mp hf⟩

/-- An instruction that the decoder answers is of the class its first byte selects, and all its bytes were there. -/
theorem decode_instr_inv {b0 : Byte} {rest : List Byte} {i : Instr} (h : decode (b0 :: rest) = .instr i) :
    opClass? (Layout.firstByteOp.get b0) = some i.opClass ∧ i.width.bytes ≤ (b0 :: rest).length := by
  obtain ⟨hone, htwo, hfour, hmove⟩ := i.width_of_opClass
  rcases decode_cons_cases b0 rest with ⟨-, hd⟩ | ⟨o, hc, hd⟩ | ⟨o, hc, ⟨-, hd⟩ | ⟨b1, tail, rfl, hd⟩⟩ |
    ⟨o, hc, ⟨-, hd⟩ | ⟨b1, b2, b3, tail, rfl, hd⟩⟩ |
    ⟨hc, ⟨-, hd⟩ | ⟨b1, b2, b3, b4, b5, b6, b7, tail, rfl, hd⟩⟩ <;> rw [hd] at h
  case inr.inl =>
    have hi : i.opClass = .one o := DecodeResult.instr.inj h ▸ opClass_decodeOne o b0
    simp [hc, hi, hone o hi, Width.bytes]
  case inr.inr.inl.inr =>
    have hi : i.opClass = .two o := DecodeResult.instr.inj h ▸ opClass_decodeTwo o _
    simp [hc, hi, htwo o hi, Width.bytes]
  case inr.inr.inr.inl.inr =>
    have hi : i.opClass = .four o := by
      rcases decodeFour_cases o (b0 ++ b1 ++ b2 ++ b3) with ⟨j, hj, hi⟩ | ⟨-, fn, hfn, -⟩
      · exact DecodeResult.instr.inj (hj.symm.trans h) ▸ hi
      · exact nomatch hfn.symm.trans h
    simp [hc, hi, hfour o hi, Width.bytes]
  case inr.inr.inr.inr.inr =>
    have hi : i.opClass = .move := DecodeResult.instr.inj h ▸ opClass_decodeMove _
    rcases hmove hi with hw | hw <;> simp [hc, hi, hw, Width.bytes]
  all_goals exact nomatch h

theorem opClass?_op (i : Instr) : opClass? i.op = some i.opClass := opClass?_opNibble i.opClass

theorem Instr.op_ne_unassigned (i : Instr) : i.op ≠ 0xF#4 := fun h =>
  nomatch ((opClass?_eq_none_iff i.op).mpr h).symm.trans (opClass?_op i)

theorem Instr.width_of_op_five {i : Instr} (h : i.op = 5#4) : i.width = .w2 ∨ i.width = .w8 := by
  obtain ⟨-, -, -, hmove⟩ := i.width_of_opClass
  have hc := opClass?_op i
  rw [h] at hc
  exact hmove (Option.some.inj hc).symm

/-- The width column of the opcode table, the move family apart (spec/30_encoding.md R81). -/
theorem Instr.width_eq_of_op (i : Instr) :
    i.width = if i.op.toNat < 3 then .w1 else if i.op.toNat = 5 then i.width else if i.op.toNat < 11 then .w2
      else .w4 := by
  cases i <;> rfl

/-- Settles O34, from the inversion of the decoder. -/
theorem decodedInstructionFitsItsBytes : Obligations.DecodedInstructionFitsItsBytes := by
  intro bytes i h
  match bytes with
  | [] => exact nomatch h
  | b0 :: rest =>
    obtain ⟨hclass, hlength⟩ := decode_instr_inv h
    exact ⟨b0, rest, rfl, opNibble_of_opClass? hclass, i.op_ne_unassigned, hlength, i.width_eq_of_op,
      Instr.width_of_op_five⟩

/-! ### Decoding with the bytes there -/

section Lengths
variable {b0 : Byte} {rest : List Byte}

theorem decode_two_of_length {o : TwoByteOp} (h : opClass? (Layout.firstByteOp.get b0) = some (.two o))
    (hl : 1 ≤ rest.length) : ∃ v, decode (b0 :: rest) = .instr (decodeTwo o v) := by
  match rest, hl with
  | _ :: _, _ => exact ⟨_, decode_two h⟩

theorem decode_four_of_length {o : FourByteOp} (h : opClass? (Layout.firstByteOp.get b0) = some (.four o))
    (hl : 3 ≤ rest.length) : ∃ v, decode (b0 :: rest) = decodeFour o v := by
  match rest, hl with
  | _ :: _ :: _ :: _, _ => exact ⟨_, decode_four h⟩

end Lengths

theorem decodeMove_width_eq_w2_iff (v : BitVec 64) :
    (decodeMove v).width = .w2 ↔ Layout.windowD.get v = 1#1 ∧ Layout.windowRest.get v = 0#48 := by
  unfold decodeMove
  split_ifs with h
  · exact ⟨fun _ => h, fun _ => rfl⟩
  · exact ⟨fun hw => (nomatch hw), fun h' => absurd h' h⟩

/-- MOV's discriminator is bit 3 of the window's first byte (spec/30_encoding.md R83). -/
theorem discriminator_eq_one_iff (b : Byte) : b.extractLsb' 3 1 = 1#1 ↔ b.getLsbD 3 = true := by
  revert b; decide

end Sys2Proof

namespace Sys2Proof.Machine

/-! ### The fetch -/

theorem step_of_reject {s : State} {r : FetchReject} (hr : s.status = .running) (hl : s.dram.legal = true)
    (hf : fetch s = .reject r) : step s = .next (s.takeFault (FetchReject.record r s.pc)) := by
  rw [step_eq_cycle hr hl, cycle, hf]

/-- Settles O42, from the decoder's answer to an unassigned nibble. -/
theorem unknownOpcodeDoesNotAdvance : Obligations.UnknownOpcodeDoesNotAdvance := by
  intro s hr hl hb hop
  have hf : fetch s = .reject (.unknownOpcode 0xF#4) := by
    rw [fetch_eq_cons hb, decode_unknown ((opClass?_eq_none_iff _).mpr hop), firstByteOp_get, hop]
  exact step_of_reject hr hl hf

section Tail
variable {s : State} {k : Nat} (hk : k ≤ 7)

/-- What the decoder gets behind the byte at the pc: as many bytes as lie in DRAM, up to eight in all. -/
theorem exists_fetch_tail (h : s.dram.inBounds s.pc.toNat 1 = true) :
    ∃ rest, fetch s = decode (s.dram.cells.read s.pc.toNat :: rest) ∧
      ∀ k, k ≤ 7 → (k ≤ rest.length ↔ s.dram.inBounds s.pc.toNat (k + 1) = true) := by
  refine ⟨_, fetch_eq_cons h, fun k hk => ?_⟩
  have h1 := (Dram.le_available_iff (n := 8) _ (by omega) (by omega)).mpr h
  rw [← Dram.le_available_iff (n := 8) _ (by omega) (by omega), Memory.length_readBytes]
  omega

include hk

theorem exists_fetch_tail_short (h : s.dram.inBounds s.pc.toNat 1 = true)
    (hn : s.dram.inBounds s.pc.toNat (k + 1) = false) :
    ∃ rest, fetch s = decode (s.dram.cells.read s.pc.toNat :: rest) ∧ rest.length < k := by
  obtain ⟨rest, hf, hlen⟩ := exists_fetch_tail h
  exact ⟨rest, hf, Nat.not_le.mp fun hc => nomatch hn.symm.trans ((hlen k hk).mp hc)⟩

theorem exists_fetch_tail_long (h : s.dram.inBounds s.pc.toNat (k + 1) = true) :
    ∃ rest, fetch s = decode (s.dram.cells.read s.pc.toNat :: rest) ∧ k ≤ rest.length := by
  have h1 : s.dram.inBounds s.pc.toNat 1 = true := by
    rw [Dram.inBounds_iff] at h ⊢
    omega
  obtain ⟨rest, hf, hlen⟩ := exists_fetch_tail h1
  exact ⟨rest, hf, (hlen k hk).mpr h⟩

end Tail

/-- Settles O43: each way ends in a rejection of the decoder, which the step turns into the record. -/
theorem fetchOutOfRangeFaults : Obligations.FetchOutOfRangeFaults := by
  intro s hr hl faulted op
  refine ⟨fun h => step_of_reject hr hl (fetch_eq_nil h), fun h hop hn => ?window, fun h hop hn => ?two,
    fun h hop hn => ?four⟩
  case window =>
    obtain ⟨rest, hf, hlen⟩ := exists_fetch_tail_short (k := 7) (by decide) h hn
    exact step_of_reject hr hl (hf.trans (decode_move_window (congrArg opClass? hop) hlen))
  case two =>
    obtain ⟨rest, hf, hlen⟩ := exists_fetch_tail_short (k := 1) (by decide) h hn
    obtain ⟨o, ho⟩ := opClass?_two hop
    rw [List.length_eq_zero_iff.mp (Nat.lt_one_iff.mp hlen), decode_two_truncated ho] at hf
    exact step_of_reject hr hl hf
  case four =>
    obtain ⟨rest, hf, hlen⟩ := exists_fetch_tail_short (k := 3) (by decide) h hn
    obtain ⟨o, ho⟩ := opClass?_four hop
    exact step_of_reject hr hl (hf.trans (decode_four_truncated ho hlen))

theorem Memory.readBytes_eight (m : Memory) (a : Nat) :
    m.readBytes a 8 = [m.read a, m.read (a + 1), m.read (a + 2), m.read (a + 3), m.read (a + 4), m.read (a + 5),
      m.read (a + 6), m.read (a + 7)] := rfl

/-- The move family's window (spec/30_encoding.md R83): a MOV exactly where bit 59 is set and W[47:0] is zero. -/
theorem fetch_move {s : State} (h : s.dram.inBounds s.pc.toNat 8 = true)
    (hop : (s.dram.cells.read s.pc.toNat).extractLsb' 4 4 = 5#4) :
    ∃ i, fetch s = .instr i ∧ i.opClass = .move ∧ (i.width = .w2 ↔ (s.dram.cells.read s.pc.toNat).getLsbD 3 = true ∧
      ∀ k, 2 ≤ k → k < 8 → s.dram.cells.read (s.pc.toNat + k) = 0#8) := by
  rw [fetch, Dram.bytesFrom_of_inBounds h, Memory.readBytes_eight]
  refine ⟨_, decode_move (congrArg opClass? hop), opClass_decodeMove _, ?_⟩
  rw [decodeMove_width_eq_w2_iff, window_d, window_rest, discriminator_eq_one_iff, rest_eq_zero_iff]
  refine and_congr_right fun _ => ⟨?_, fun hz => ?_⟩
  · rintro ⟨h2, h3, h4, h5, h6, h7⟩ k hk2 hk8
    interval_cases k <;> assumption
  · refine ⟨hz 2 ?_ ?_, hz 3 ?_ ?_, hz 4 ?_ ?_, hz 5 ?_ ?_, hz 6 ?_ ?_, hz 7 ?_ ?_⟩ <;> decide

/-- Settles O44: the class that the nibble selects gives the instruction's opcode and its width. -/
theorem classifierGivesTheTableWidth : Obligations.ClassifierGivesTheTableWidth := by
  intro s a op
  refine ⟨fun hop h => ?one, fun hop h => ?two, fun hop h => ?four, fun hop h => ?move⟩
  case one =>
    obtain ⟨o, ho⟩ := opClass?_one hop
    have hi := opClass_decodeOne o (s.dram.cells.read a)
    obtain ⟨hone, -⟩ := (decodeOne o (s.dram.cells.read a)).width_of_opClass
    exact ⟨_, (fetch_eq_cons h).trans (decode_one ho), opNibble_of_opClass? (hi ▸ ho), hone o hi⟩
  case two =>
    obtain ⟨o, ho⟩ := opClass?_two hop
    obtain ⟨rest, hf, hlen⟩ := exists_fetch_tail_long (k := 1) (by decide) h
    obtain ⟨v, hv⟩ := decode_two_of_length ho hlen
    have hi := opClass_decodeTwo o v
    obtain ⟨-, htwo, -⟩ := (decodeTwo o v).width_of_opClass
    exact ⟨_, hf.trans hv, opNibble_of_opClass? (hi ▸ ho), htwo o hi⟩
  case four =>
    obtain ⟨o, ho⟩ := opClass?_four hop
    obtain ⟨rest, hf, hlen⟩ := exists_fetch_tail_long (k := 3) (by decide) h
    obtain ⟨v, hv⟩ := decode_four_of_length ho hlen
    rcases decodeFour_cases o v with ⟨i, hd, hi⟩ | ⟨rfl, fn, hd, hfn⟩
    · obtain ⟨-, -, hfour, -⟩ := i.width_of_opClass
      exact .inl ⟨i, hf.trans (hv.trans hd), opNibble_of_opClass? (hi ▸ ho), hfour o hi⟩
    · exact .inr ⟨(opNibble_of_opClass? ho).symm, fn, hf.trans (hv.trans hd), hfn⟩
  case move =>
    obtain ⟨i, hf, hi, hw⟩ := fetch_move h hop
    have h5 : i.op = 5#4 := by rw [Instr.op, hi]; rfl
    exact ⟨i, hf, h5.trans hop.symm, Instr.width_of_op_five h5, hw⟩

/-! ### Which instructions fault when they execute -/

/-- `i` is no illegal encoding of spec/30_encoding.md R106, and where it is an EXEC or a LOAD its id or key has an
entry. -/
def Faultless (i : Instr) (s : State) : Prop :=
  i.legal = true ∧ (∀ id, i = .exec id → id ∈ s.info.execs) ∧
    (∀ rd k, i = .load rd k → s.info.signal (BitVec.ofNat 32 k.toNat) ≠ none)

/-- EXEC and LOAD apart, only the encoding matters. -/
theorem faultless_iff_legal {i : Instr} (s : State) (hexec : ∀ id, i ≠ .exec id) (hload : ∀ rd k, i ≠ .load rd k) :
    Faultless i s ↔ i.legal = true :=
  ⟨fun h => h.1, fun h => ⟨h, fun id he => absurd he (hexec id), fun rd k hl => absurd hl (hload rd k)⟩⟩

theorem faultless_exec_iff {id : BitVec 10} {s : State} : Faultless (.exec id) s ↔ s.info.execHit id = true := by
  simp [Faultless, Instr.legal, Info.execHit]

theorem faultless_load_iff {rd : RegIdx} {k : BitVec 24} {s : State} :
    Faultless (.load rd k) s ↔ s.info.signal (signalKey k) ≠ none := by
  simp [Faultless, Instr.legal, signalKey]

/-- `o` is a next state: with the status kept where `i` is faultless, with a fatal fault where it is not. -/
def FaultsUnlessFaultless (i : Instr) (s : State) (o : Host.Outcome State Fault Refusal) : Prop :=
  ∃ t, o = .next t ∧ ((Faultless i s ∧ t.status = s.status) ∨ (¬ Faultless i s ∧ ∃ rec, t.status = .faulted rec))

theorem exec_faultsUnlessFaultless (i : Instr) (s : State) : FaultsUnlessFaultless i s (exec i s) := by
  have kept {t : State} (hi : Faultless i s) (ht : t.status = s.status) : FaultsUnlessFaultless i s (.next t) :=
    ⟨t, rfl, .inl ⟨hi, ht⟩⟩
  have raised {code : FaultCode} {info : FaultInfo} (hi : ¬ Faultless i s) :
      FaultsUnlessFaultless i s (raise i code info s) := ⟨_, rfl, .inr ⟨hi, _, rfl⟩⟩
  have legal_iff := faultless_iff_legal (i := i) s
  cases i with
  | trigger | ret | triggerPos _ | jmp _ | mov _ _ | bl _ | and _ _ _ | or _ _ _ | xor _ _ _ | redand _ _ _
  | redor _ _ _ | redxor _ _ _ | concat _ _ _ | isunk _ _ _ | add _ _ _ | sub _ _ _ =>
    exact kept ((legal_iff nofun nofun).mpr rfl) (by simp)
  | timerSet tid fn =>
    have hi := (legal_iff nofun nofun).mpr rfl
    simp only [exec, execTimerSet]
    split_ifs <;> exact kept hi (by simp)
  | domainSet dom =>
    have hi := (legal_iff nofun nofun).mpr rfl
    simp only [exec, execDomainSet]
    split_ifs <;> exact kept hi rfl
  | display id =>
    have hi := (legal_iff nofun nofun).mpr rfl
    simp only [exec, execDisplay]
    split_ifs <;> exact kept hi rfl
  | exec id =>
    simp only [exec, execExec]
    split_ifs with hhit
    · exact kept (faultless_exec_iff.mpr hhit) rfl
    · exact raised (mt faultless_exec_iff.mp hhit)
  | edgeDetect rd rs fn =>
    have hi : Faultless (.edgeDetect rd rs fn) s ↔ fn ≠ 7#3 := (legal_iff nofun nofun).trans bne_iff_ne
    simp only [exec, execEdgeDetect]
    split
    · next f hf => exact kept (hi.mpr fun h7 => nomatch hf.symm.trans ((edgeFn?_eq_none_iff fn).mpr h7)) (by simp)
    · next hf => exact raised (mt hi.mp (not_not.mpr ((edgeFn?_eq_none_iff fn).mp hf)))
  | jmpc fn rs1 rs2 off8 =>
    have hi : Faultless (.jmpc fn rs1 rs2 off8) s ↔ fn.toNat < 8 := (legal_iff nofun nofun).trans decide_eq_true_iff
    simp only [exec, execJmpc]
    split
    · next f hf =>
      have hfn := hi.mpr (Nat.not_le.mp fun h8 => nomatch hf.symm.trans ((jmpcFn?_eq_none_iff fn).mpr h8))
      split_ifs <;> exact kept hfn rfl
    · next hf => exact raised (mt hi.mp (Nat.not_lt.mpr ((jmpcFn?_eq_none_iff fn).mp hf)))
  | bitSlice rd rs start stop =>
    have hi : Faultless (.bitSlice rd rs start stop) s ↔ start.toNat ≤ stop.toNat :=
      (legal_iff nofun nofun).trans decide_eq_true_iff
    simp only [exec, execBitSlice]
    split_ifs with hgt
    · exact raised (mt hi.mp (Nat.not_le.mpr hgt))
    · exact kept (hi.mpr (Nat.not_lt.mp hgt)) (by simp)
  | load rd saddr =>
    simp only [exec, execLoad]
    split
    · next v hv => exact kept (faultless_load_iff.mpr fun hn => nomatch hv.symm.trans hn) (by simp)
    · next hv => exact raised (mt faultless_load_iff.mp (not_not.mpr hv))
  | movi rsv rd imm =>
    have hi : Faultless (.movi rsv rd imm) s ↔ rsv = 0#1 := (legal_iff nofun nofun).trans beq_iff_eq
    simp only [exec, execMovi]
    split_ifs with hrsv
    · exact raised fun h => nomatch hrsv.symm.trans (hi.mp h)
    · exact kept (hi.mpr (by bv_omega)) (by simp)

/-- Settles O56, from what every instruction does to the status. -/
theorem executeFaultsOnlyOnIllegalEncodingsAndMisses : Obligations.ExecuteFaultsOnlyOnIllegalEncodingsAndMisses := by
  intro i s hr
  obtain ⟨t, ht, ⟨hi, hs⟩ | ⟨hi, rec, hs⟩⟩ := exec_faultsUnlessFaultless i s
  · exact ⟨t, ht, ⟨fun _ => hi, fun _ => hs.trans hr⟩, fun h => absurd (hs.trans hr) h⟩
  · exact ⟨t, ht, ⟨fun h => (nomatch hs.symm.trans h), fun h => absurd h hi⟩, fun _ => ⟨rec, hs⟩⟩

end Sys2Proof.Machine
end

section
/-! PROOFS. The cycle (spec/40_cycle.md R120 to R132): which bytes it decodes, how it ends with a fatal fault and without
one, and when it halts the run. -/

namespace Sys2Proof

theorem decode_tableBytes {nbits w : Nat} {i : Instr} (h : decodeTableWord nbits w = some i) :
    decode (tableBytes nbits w) = .instr i := by
  unfold decodeTableWord at h
  split at h
  · next j hj => rw [hj, Option.some.inj h]
  · cases h
  · cases h

end Sys2Proof

namespace Sys2Proof.Machine

/-! ### The bytes the decoder is given -/

theorem Memory.take_readBytes (m : Memory) (a : Nat) {n k : Nat} (hk : k ≤ n) :
    (m.readBytes a n).take k = m.readBytes a k := by
  apply List.ext_getElem?
  intro j
  rw [List.getElem?_take, Memory.getElem?_readBytes, Memory.getElem?_readBytes]
  by_cases hj : j < k
  · rw [if_pos hj, if_pos (hj.trans_le hk), if_pos hj]
  · rw [if_neg hj, if_neg hj]

/-- Settles O41: the fetch port and the bus read the same run of bytes. -/
theorem fetchReadsTheBus : Obligations.FetchReadsTheBus := by
  intro s
  rw [Dram.length_bytesFrom]
  refine ⟨Dram.available_le _ _ _, fun n hn h => ?_⟩
  have hbounds : 1 ≤ n ∧ n ≤ 8 := by fin_cases hn <;> decide
  have havail : n ≤ s.dram.available s.pc.toNat 8 := (Dram.le_available_iff _ hbounds.1 hbounds.2).mpr h
  refine ⟨havail, ?_, fun k hk => ?_⟩
  · rw [Dram.busLoad_of_inBounds hn h, Dram.bytesFrom, Memory.take_readBytes _ _ havail]
  · rw [Dram.getElem?_bytesFrom, if_pos (hk.trans_le havail)]

theorem Dram.available_of_inBounds {d : Dram} {a n : Nat} (h : d.inBounds a n = true) : d.available a n = n := by
  simpa using congrArg List.length (Dram.bytesFrom_of_inBounds h)

/-- Bytes placed at the pc are what the fetch port gives there. -/
theorem bytesFrom_placeAtPc {s : State} {bytes : List Byte} (hwf : s.dram.cells.wf)
    (h : s.dram.inBounds s.pc.toNat bytes.length = true) :
    (placeAtPc s bytes).dram.bytesFrom s.pc.toNat bytes.length = bytes := by
  have hplaced : (placeAtPc s bytes).dram.cells = s.dram.cells.writeBytes s.pc.toNat bytes := by
    simp [placeAtPc, Dram.available_of_inBounds h]
  rw [Dram.bytesFrom_of_inBounds (d := (placeAtPc s bytes).dram) h, hplaced, Memory.readBytes_writeBytes hwf]

/-- Settles O60: the fetch port gives the placed bytes back, and the decoder answers as on the table's word. -/
theorem placedWordIsFetched : Obligations.PlacedWordIsFetched := by
  intro s nbits w i hwf h hi
  have hbytes := bytesFrom_placeAtPc (bytes := tableBytes nbits w) hwf h
  exact ⟨(congrArg decode hbytes).trans (decode_tableBytes hi), rfl, rfl⟩

/-! ### A step with the instruction at hand -/

/-- A fetched instruction is dispatched with the pc advanced, and what it answers is completed. -/
theorem step_of_instr {s t : State} {i : Instr} (hr : s.status = .running) (hl : s.dram.legal = true)
    (hf : fetch s = .instr i) (he : exec i (s.advance i.width) = .next t) : step s = .next (complete s.latch t) := by
  simp only [step_eq_cycle hr hl, cycle, hf, he, finish]

/-- Settles O40, by the two ways a cycle ends. -/
theorem stepRunsTheDecodedInstruction : Obligations.StepRunsTheDecodedInstruction := by
  intro s i hr hl hf t he
  have hstep := step_of_instr hr hl hf he
  refine ⟨fun ht => ?_, fun ht => ?_⟩
  · rw [hstep, complete_of_running _ ht]
    rfl
  · rw [hstep, complete_of_not_running _ ht]

/-- Settles O51, along the cases of a step. -/
theorem everyStepAnswersANextState : Obligations.EveryStepAnswersANextState := by
  intro s
  refine ⟨fun hl => ?_, fun hl hr => step_of_illegal hr hl⟩
  by_cases hr : s.status = .running
  · rcases step_cases hr hl with ⟨_, -, h⟩ | ⟨_, -, h⟩ | ⟨_, _, -, -, -, h⟩ | ⟨_, _, _, -, -, -, h⟩ <;> exact ⟨_, h⟩
  · exact ⟨s, step_of_not_running hr⟩

/-! ### A cycle ends with a fatal fault, or completes -/

/-- The state at the end of a cycle of `s` that raised no fatal fault: SNAPSHOT, TICK and CHECK of what the instruction
left. -/
def CycleCompletes (s t : State) : Prop :=
  ∃ w u items, Completed (s.advance w) u items ∧ t = check (timerTick (snapshot s.latch u))

theorem step_faults_or_completes {s t : State} (hr : s.status = .running) (h : step s = .next t) :
    (∃ pc rec, t = { s with pc := pc, status := .faulted rec }) ∨ CycleCompletes s t := by
  rcases step_next_cases h with
    ⟨hn, -⟩ | ⟨-, ⟨r, -, rfl⟩ | ⟨fn, -, rfl⟩ | ⟨i, -, _, _, rfl, -⟩ | ⟨i, u, items, -, hC, rfl⟩⟩
  · exact absurd hr hn
  · exact .inl ⟨s.pc, _, rfl⟩
  · exact .inl ⟨_, _, rfl⟩
  · exact .inl ⟨_, _, rfl⟩
  · exact .inr ⟨_, u, items, hC, rfl⟩

theorem step_completes {s t : State} (hr : s.status = .running) (h : step s = .next t)
    (hnf : ∀ rec, t.status ≠ .faulted rec) : CycleCompletes s t := by
  rcases step_faults_or_completes hr h with ⟨_, rec, rfl⟩ | hC
  · exact absurd rfl (hnf rec)
  · exact hC

theorem CycleCompletes.prevAt {s t : State} (h : CycleCompletes s t) (r : RegIdx) : t.prevAt r = s.x r := by
  obtain ⟨w, u, items, -, rfl⟩ := h
  have hprev : (check (timerTick (snapshot s.latch u))).prev = s.latch := by simp [snapshotOf, Readings.snapshotMode]
  simp only [State.prevAt, hprev]
  exact State.latch_getElem s r.toNat r.isLt

/-- CHECK alone decides the status, by the pc after TICK. -/
theorem CycleCompletes.status {s t : State} (h : CycleCompletes s t) (hr : s.status = .running) :
    t.status = if t.pc = 0#32 then .halted else .running := by
  obtain ⟨w, u, items, hC, rfl⟩ := h
  simp [check_status, hC.status, hr]

/-- Settles O45: a cycle that completes ends Halted or Running. -/
theorem fatalFaultsChangeOnlyPcAndStatus : Obligations.FatalFaultsChangeOnlyPcAndStatus := by
  intro s t rec hr h ht
  rcases step_faults_or_completes hr h with ⟨pc, rec', rfl⟩ | hC
  · obtain rfl : rec' = rec := Status.faulted.inj ht
    rfl
  · have hstatus := hC.status hr
    rw [ht] at hstatus
    split_ifs at hstatus

/-- Settles O48, from what decides the status. -/
theorem runHaltsExactlyAtPcZero : Obligations.RunHaltsExactlyAtPcZero := by
  intro s t hr h hnf
  rw [(step_completes hr h hnf).status hr]
  by_cases hpc : t.pc = 0#32 <;> simp [hpc]

theorem edgeHolds_of_unchanged {f : EdgeFn} (hf : f ∈ [EdgeFn.rising, .falling, .anyTransition]) (b : Bool) :
    edgeHolds f b b = false := by
  fin_cases hf <;> cases b <;> rfl

/-- Settles O47: SNAPSHOT writes the latch, which was taken when the cycle began. -/
theorem snapshotHoldsTheRegistersBefore : Obligations.SnapshotHoldsTheRegistersBefore := by
  intro s t hr h hnf r
  have hprev := (step_completes hr h hnf).prevAt r
  refine ⟨hprev, fun hbit f hf => ?_⟩
  have hcur : t.curBit r = t.oldBit r := by rw [State.curBit, State.oldBit, hprev, hbit]
  rw [hcur]
  exact edgeHolds_of_unchanged hf _

/-! ### RET at the end of a run -/

theorem Timer.not_redirects_iff (r : Timer) :
    ¬ r.redirects ↔ r.enabled = false ∨ r.count + 1#32 < r.threshold ∨ r.targetPc = 0#32 := by
  rw [Timer.redirects, Timer.reaches, not_and_or, not_and_or, not_not, Bool.not_eq_true, ge_iff_le, BitVec.not_le,
    or_assoc]

theorem fetch_ret {s : State} (hb : s.dram.inBounds s.pc.toNat 1 = true)
    (hop : (s.dram.cells.read s.pc.toNat).extractLsb' 4 4 = 1#4) : fetch s = .instr .ret :=
  (fetch_eq_cons hb).trans (decode_one (o := .ret) (congrArg opClass? hop))

/-- A RET returns to LR unless the tick redirects, and CHECK then looks at the pc (spec/40_cycle.md R132, R133). -/
theorem step_ret {s : State} (hr : s.status = .running) (hl : s.dram.legal = true) (hf : fetch s = .instr .ret) :
    ∃ t, step s = .next t ∧ t.status = (if t.pc = 0#32 then .halted else .running) ∧
      t.pc = tickPc s.timer1 (tickPc s.timer0 s.lr) := by
  have hC : Completed (s.advance .w1) (((s.advance .w1).setPc s.lr).setLr 0#32) [] :=
    (completed_setPc _ _).then (completed_setReg _ _ _)
  have hstep : step s = .next (complete s.latch (((s.advance .w1).setPc s.lr).setLr 0#32)) :=
    step_of_instr hr hl hf rfl
  rw [complete_of_running _ (hC.status.trans hr)] at hstep
  refine ⟨_, hstep, CycleCompletes.status ⟨_, _, _, hC, rfl⟩ hr, ?_⟩
  rw [check_pc, timerTick_pc]
  simp [State.lr]

/-- Settles O49: without a redirect the pc stays LR, which is 0; a redirect's target is not 0, and timer 1 is the last to
write the pc. -/
theorem retWithZeroLinkHaltsUnlessATimerFires : Obligations.RetWithZeroLinkHaltsUnlessATimerFires := by
  intro s hr hl hb hop hlr
  obtain ⟨t, hstep, hstatus, hpc⟩ := step_ret hr hl (fetch_ret hb hop)
  rw [show s.lr = 0#32 from hlr] at hpc
  refine ⟨fun hquiet => ?quiet, fun h1 => ?timer1, fun h0 h1 => ?timer0⟩
  case quiet =>
    have h0 : ¬ s.timer0.redirects := (Timer.not_redirects_iff _).mpr (hquiet .t0)
    have h1 : ¬ s.timer1.redirects := (Timer.not_redirects_iff _).mpr (hquiet .t1)
    rw [tickPc_of_not_redirects _ h1, tickPc_of_not_redirects _ h0] at hpc
    exact ⟨t, hstep, hstatus.trans (if_pos hpc), hpc⟩
  case timer1 =>
    rw [tickPc_of_redirects _ h1] at hpc
    exact ⟨t, hstep, hstatus.trans (if_neg (hpc ▸ h1.2)), hpc⟩
  case timer0 =>
    rw [tickPc_of_not_redirects _ h1, tickPc_of_redirects _ h0] at hpc
    exact ⟨t, hstep, hstatus.trans (if_neg (hpc ▸ h0.2)), hpc⟩

end Sys2Proof.Machine
end

section
/-! PROOFS. The one-byte instructions (spec/41_width1.md): TRIGGER, RET, and TIMER_SET with the tick of the same cycle. -/

namespace Sys2Proof

/-- Bit 3 names the timer (spec/30_encoding.md R91). -/
theorem timerTid_ofBit (b : Byte) : TimerId.ofBit (Layout.timerTid.get b) = if b.getLsbD 3 then .t1 else .t0 :=
  if_congr (discriminator_eq_one_iff b) rfl rfl

end Sys2Proof

namespace Sys2Proof.Machine

/-- Settles O9: nibble 0 selects TRIGGER, whose meaning is the one event. -/
theorem triggerOnlyEmits : Obligations.TriggerOnlyEmits :=
  ⟨fun _ _ h => decode_one (o := .trigger) (congrArg opClass? h), fun _ => rfl⟩

/-! ### RET -/

theorem State.setPc_kept (s : State) (v : Word) : Kept s (s.setPc v) :=
  ⟨rfl, rfl, rfl, rfl, rfl, rfl, rfl, rfl, fun _ => rfl⟩

theorem Kept.trans {s t u : State} (h : Kept s t) (h' : Kept t u) : Kept s u where
  prev := h'.prev.trans h.prev
  domain := h'.domain.trans h.domain
  counters := h'.counters.trans h.counters
  timer0 := h'.timer0.trans h.timer0
  timer1 := h'.timer1.trans h.timer1
  status := h'.status.trans h.status
  info := h'.info.trans h.info
  dram := h'.dram.trans h.dram
  bytes := fun a => (h'.bytes a).trans (h.bytes a)

theorem exec_ret_eq (s : State) : exec .ret s = .next ((s.setPc s.lr).setLr 0#32) := rfl

theorem pc_of_exec_ret {s t : State} (h : exec .ret s = .next t) : t.pc = s.lr := by
  cases (exec_ret_eq s).symm.trans h
  simp

/-- Settles O10: after the pc, a RET writes register 16 alone, and the next RET reads the 0 it wrote. -/
theorem retReturnsAndClearsLr : Obligations.RetReturnsAndClearsLr := by
  refine ⟨fun _ _ h => decode_one (o := .ret) (congrArg opClass? h), fun s => ⟨_, exec_ret_eq s, ?_⟩⟩
  have hw : WritesReg (s.setPc s.lr) ((s.setPc s.lr).setLr 0#32) lrIdx 0#32 := State.setReg_writes _ _ _
  exact ⟨hw.pc, hw.value, hw.others, hw.trace, (s.setPc_kept _).trans hw.kept,
    fun u hu => (pc_of_exec_ret hu).trans hw.value⟩

/-! ### A timer that TIMER_SET leaves enabled at count 0, in the tick of the same cycle -/

/-- The timer enabled at count 0: what a reset leaves of an enabled timer, and an enable of one at count 0. -/
def Timer.armed (r : Timer) : Timer := { r with enabled := true, count := 0#32 }

theorem exec_timerSet_armed {t : TimerId} {fn : BitVec 2} {s : State}
    (h : fn = 0 ∧ (s.timer t).enabled = true ∨ fn = 2 ∧ (s.timer t).count = 0#32) :
    exec (.timerSet t fn) s = .next (s.setTimer t (s.timer t).armed) := by
  rcases h with ⟨rfl, henabled⟩ | ⟨rfl, hcount⟩
  · rw [Timer.armed, ← henabled]; rfl
  · rw [Timer.armed, ← hcount]; rfl

theorem tickedTimer_armed_count (r : Timer) :
    (tickedTimer r.armed).count = if r.threshold ≤ 1#32 then 0#32 else 1#32 := by
  simp only [tickedTimer, Timer.armed, if_true, BitVec.zero_add]
  split_ifs <;> rfl

/-- The trace entry of a timer that fires (spec/60_exceptions.md R255). -/
def firedEntry (t : TimerId) (r : Timer) : TraceItem :=
  if r.targetPc = 0#32 then .warning (.timerNoTarget t) else .event (.timerFired t r.targetPc)

theorem tickItems_armed (t : TimerId) {r : Timer} (h : r.threshold ≤ 1#32) : tickItems t r.armed = [firedEntry t r] := by
  by_cases htarget : r.targetPc = 0#32 <;> simp [tickItems, Timer.armed, firedEntry, h, htarget]

theorem tickPc_armed {r : Timer} (h : r.threshold ≤ 1#32) (pc : Word) :
    tickPc r.armed pc = if r.targetPc = 0#32 then pc else r.targetPc := by
  by_cases htarget : r.targetPc = 0#32 <;> simp [tickPc, Timer.armed, h, htarget]

/-- A tick that fires one armed timer, the whole state. -/
theorem tickTimer_armed (t : TimerId) (s : State) {r : Timer} (h : r.threshold ≤ 1#32) :
    tickTimer t (s.setTimer t r.armed) = { s.setTimer t r.armed with
      pc := if r.targetPc = 0#32 then s.pc else r.targetPc, trace := s.trace ++ [firedEntry t r] } := by
  by_cases htarget : r.targetPc = 0#32 <;> cases t <;>
    simp [tickTimer, State.setTimer, Timer.armed, State.emit, State.warn, State.setPc, firedEntry, h, htarget]

/-- A tick of both timers is the tick of one where the other is disabled. -/
theorem timerTick_of_other_disabled {t : TimerId} {s : State} (h : ∀ k, k ≠ t → (s.timer k).enabled = false) :
    timerTick s = tickTimer t s := by
  cases t with
  | t0 =>
    have h1 : ((tickTimer .t0 s).timer .t1).enabled = false := by
      rw [tickTimer_other .t0 s (by decide)]
      exact h .t1 (by decide)
    exact tickTimer_of_disabled h1
  | t1 => rw [timerTick, tickTimer_of_disabled (h .t0 (by decide))]

section Fires
variable (t : TimerId) (s : State) {r : Timer} (h : r.threshold ≤ 1#32)
include h

/-- The other timer's entry comes after timer 0's and before timer 1's. -/
theorem timerTick_armed_trace :
    ∃ before after, (timerTick (s.setTimer t r.armed)).trace = s.trace ++ before ++ firedEntry t r :: after := by
  rw [timerTick_trace, State.setTimer_trace]
  cases t with
  | t0 => exact ⟨[], tickItems .t1 s.timer1, by simp [tickItems_armed .t0 h]⟩
  | t1 => exact ⟨tickItems .t0 s.timer0, [], by simp [tickItems_armed .t1 h]⟩

/-- An armed timer 1 is the last to write the pc, an armed timer 0 where timer 1 does not redirect. -/
theorem timerTick_armed_pc (hother : t = .t1 ∨ ¬ s.timer1.redirects) (htarget : r.targetPc ≠ 0#32) :
    (timerTick (s.setTimer t r.armed)).pc = r.targetPc := by
  rw [timerTick_pc]
  cases t with
  | t0 =>
    have h1 : ¬ s.timer1.redirects := hother.resolve_left (by decide)
    simp [tickPc_armed h, htarget, tickPc_of_not_redirects _ h1]
  | t1 => simp [tickPc_armed h, htarget]

theorem timerTick_armed_pc_no_target (hother : ∀ k, k ≠ t → ¬ (s.timer k).redirects) (htarget : r.targetPc = 0#32) :
    (timerTick (s.setTimer t r.armed)).pc = s.pc := by
  rw [timerTick_pc]
  cases t with
  | t0 =>
    have h1 : ¬ s.timer1.redirects := hother .t1 (by decide)
    simp [tickPc_armed h, htarget, tickPc_of_not_redirects _ h1]
  | t1 =>
    have h0 : ¬ s.timer0.redirects := hother .t0 (by decide)
    simp [tickPc_armed h, htarget, tickPc_of_not_redirects _ h0]

theorem timerTick_armed_alone (hother : ∀ k, k ≠ t → (s.timer k).enabled = false) :
    timerTick (s.setTimer t r.armed) = { s.setTimer t r.armed with
      pc := if r.targetPc = 0#32 then s.pc else r.targetPc, trace := s.trace ++ [firedEntry t r] } := by
  have hdisabled (k : TimerId) (hk : k ≠ t) : ((s.setTimer t r.armed).timer k).enabled = false := by
    rw [State.timer_setTimer, if_neg hk]
    exact hother k hk
  rw [timerTick_of_other_disabled hdisabled, tickTimer_armed t s h]

end Fires

/-- Settles O11: each function by its meaning; a reset of an enabled timer and an enable at count 0 both leave the timer
armed, and the tick of an armed timer counts to 1 or fires. -/
theorem timerSetControlsOneTimer : Obligations.TimerSetControlsOneTimer := by
  refine ⟨fun b rest h => ?decodes, fun s =>
    ⟨rfl, rfl, rfl, rfl, rfl, rfl, fun _ => rfl, fun t fn u hfn hu => ?ticks⟩⟩
  case decodes =>
    rw [← timerTid_ofBit]
    exact decode_one (o := .timerSet) (congrArg opClass? h)
  case ticks =>
    cases (exec_timerSet_armed hfn).symm.trans hu
    have hcount : ((timerTick (s.setTimer t (s.timer t).armed)).timer t).count =
        if (s.timer t).threshold ≤ 1#32 then 0#32 else 1#32 := by
      rw [timerTick_timer, State.timer_setTimer, if_pos rfl, tickedTimer_armed_count]
    refine ⟨fun hgt => hcount.trans (if_neg (BitVec.not_le.mpr hgt)), fun hle => ⟨hcount.trans (if_pos hle), ?_⟩⟩
    exact ⟨timerTick_armed_trace t s hle, fun htarget hother => timerTick_armed_pc t s hle hother htarget,
      fun htarget hother => timerTick_armed_pc_no_target t s hle hother htarget, timerTick_armed_alone t s hle⟩

end Sys2Proof.Machine
end

section
/-! PROOFS. The two-byte instructions (spec/42_width2.md): the events and lookups, JMP and BL, MOV, EDGE_DETECT. -/

namespace Sys2Proof

/-! ### The words of EDGE_DETECT and MOV -/

/-- The fields of a two-byte word that lie within one byte, below the opcode and above bit 0. -/
theorem join2_fields (b0 b1 : Byte) :
    BitVec.extractLsb' 8 4 (b0 ++ b1 : BitVec 16) = b0.extractLsb' 0 4 ∧
    BitVec.extractLsb' 4 4 (b0 ++ b1 : BitVec 16) = b1.extractLsb' 4 4 ∧
    BitVec.extractLsb' 1 3 (b0 ++ b1 : BitVec 16) = b1.extractLsb' 1 3 :=
  ⟨BitVec.extractLsb'_append_eq_of_le (by decide), BitVec.extractLsb'_append_eq_of_add_le (by decide),
    BitVec.extractLsb'_append_eq_of_add_le (by decide)⟩

theorem decodeTwo_edgeDetect (b0 b1 : Byte) :
    decodeTwo .edgeDetect (b0 ++ b1)
      = .edgeDetect (b0.extractLsb' 0 4) (b1.extractLsb' 4 4) (b1.extractLsb' 1 3) := by
  obtain ⟨hrd, hrs, hfn⟩ := join2_fields b0 b1
  exact congr (congrArg₂ Instr.edgeDetect hrd hrs) hfn

/-- The window of a MOV: the discriminator set and zero bytes behind the first half (spec/30_encoding.md R83). -/
theorem decodeMove_of_mov {b0 : Byte} (h : b0.getLsbD 3 = true) (b1 : Byte) :
    decodeMove (b0 ++ b1 ++ 0#8 ++ 0#8 ++ 0#8 ++ 0#8 ++ 0#8 ++ 0#8)
      = .mov ((b0 ++ b1).extractLsb' 7 4) ((b0 ++ b1).extractLsb' 3 4) := by
  rw [decodeMove, window_d, window_rest, window_half, if_pos ⟨(discriminator_eq_one_iff b0).mpr h, rfl⟩]
  rfl

end Sys2Proof

namespace Sys2Proof.Machine

/-! ### Events and lookups -/

theorem Info.domainHit_iff (f : Info) (dom : BitVec 8) : f.domainHit dom = true ↔ dom ∈ f.domains :=
  List.contains_iff_mem

theorem Info.displayHit_iff (f : Info) (id : BitVec 10) : f.displayHit id = true ↔ id ∈ f.displays :=
  List.contains_iff_mem

theorem Info.execHit_iff (f : Info) (id : BitVec 10) : f.execHit id = true ↔ id ∈ f.execs :=
  List.contains_iff_mem

/-- Settles O12: nibble 3 selects TRIGGER_POS, whose meaning is the one event. -/
theorem triggerPosOnlyEmits : Obligations.TriggerPosOnlyEmits :=
  ⟨fun _ _ _ h => decode_two (o := .triggerPos) (congrArg opClass? h), fun _ _ => rfl⟩

/-- Settles O16: the domain is written before the lookup decides between event and warning. -/
theorem domainSetWritesOnHitAndMiss : Obligations.DomainSetWritesOnHitAndMiss := by
  refine ⟨fun _ _ _ h => decode_two (o := .domainSet) (congrArg opClass? h), fun dom s =>
    ⟨fun hit => ?_, fun miss => ?_⟩⟩
  · exact if_pos ((s.info.domainHit_iff dom).mpr hit)
  · exact if_neg (mt (s.info.domainHit_iff dom).mp miss)

/-- Settles O17: the lookup decides between event and warning. -/
theorem displayEmitsOrWarns : Obligations.DisplayEmitsOrWarns := by
  refine ⟨fun _ _ _ h => decode_two (o := .display) (congrArg opClass? h), fun id s => ⟨fun hit => ?_, fun miss => ?_⟩⟩
  · exact if_pos ((s.info.displayHit_iff id).mpr hit)
  · exact if_neg (mt (s.info.displayHit_iff id).mp miss)

/-- Settles O18: the lookup decides between the event and the fault, which changes the status alone. -/
theorem execEmitsOrFaults : Obligations.ExecEmitsOrFaults := by
  refine ⟨fun _ _ _ h => decode_two (o := .exec) (congrArg opClass? h), fun id s => ⟨fun hit => ?_, fun miss => ?_⟩⟩
  · exact if_pos ((s.info.execHit_iff id).mpr hit)
  · have hraise : exec (.exec id) s = raise (.exec id) .unknownExecId (.execId id) s :=
      if_neg (mt (s.info.execHit_iff id).mp miss)
    exact hraise.trans (raise_eq _ _ _ s)

/-! ### JMP and BL -/

theorem exec_jmp_eq (off8 : BitVec 8) (s : State) :
    exec (.jmp off8) s = .next (s.setPc (BitVec.ofInt 32 ((s.pc.toNat : Int) + off8.toInt))) := by
  rw [exec, execJmp, s.target_eq]

/-- Settles O13: a write of the pc alone, the target as the sum over the integers. -/
theorem jmpAddsTheSignedOffset : Obligations.JmpAddsTheSignedOffset :=
  ⟨fun _ _ _ h => decode_two (o := .jmp) (congrArg opClass? h), exec_jmp_eq⟩

/-- Settles O15: a write of LR alone, then a write of the pc alone. -/
theorem blLinksAndBranches : Obligations.BlLinksAndBranches := by
  refine ⟨fun _ _ _ h => decode_two (o := .bl) (congrArg opClass? h), fun off10 s => ⟨_, rfl, s.target_eq off10, ?_⟩⟩
  have hlink : WritesReg s (s.setLr s.pc) lrIdx s.pc := s.setReg_writes _ _
  exact ⟨hlink.value, hlink.others, hlink.trace, hlink.kept.trans (State.setPc_kept _ _)⟩

/-! ### MOV -/

/-- Settles O14: the window is a MOV's, and its meaning is one register write. -/
theorem movCopiesTheRegister : Obligations.MovCopiesTheRegister :=
  ⟨fun _ b1 _ hop hd => (decode_move (congrArg opClass? hop)).trans (congrArg _ (decodeMove_of_mov hd b1)),
    fun rd rs s => ⟨_, rfl, s.setX_writes rd (s.x rs)⟩⟩

/-! ### EDGE_DETECT -/

section EdgeHolds
variable (old cur : Bool)

theorem edgeHolds_rising : edgeHolds .rising old cur = true ↔ old = false ∧ cur = true := by simp [edgeHolds]

theorem edgeHolds_falling : edgeHolds .falling old cur = true ↔ old = true ∧ cur = false := by simp [edgeHolds]

theorem edgeHolds_anyTransition : edgeHolds .anyTransition old cur = true ↔ old ≠ cur := bne_iff_ne

theorem edgeHolds_stableLow : edgeHolds .stableLow old cur = true ↔ old = false ∧ cur = false := by simp [edgeHolds]

theorem edgeHolds_stableHigh : edgeHolds .stableHigh old cur = true ↔ old = true ∧ cur = true := by simp [edgeHolds]

theorem edgeHolds_stable : edgeHolds .stable old cur = true ↔ old = cur := beq_iff_eq

end EdgeHolds

section EdgeDetect
variable (rd rs : RegIdx) {fn : BitVec 3} (s : State)

theorem exec_edgeDetect_valid {f : EdgeFn} (hf : edgeFn? fn = some f) :
    exec (.edgeDetect rd rs fn) s
      = .next (s.setX rd (if edgeHolds f (s.oldBit rs) (s.curBit rs) then 1#32 else 0#32)) := by
  rw [exec, execEdgeDetect, hf]

theorem exec_edgeDetect_invalid (hf : edgeFn? fn = none) :
    exec (.edgeDetect rd rs fn) s = raise (.edgeDetect rd rs fn) .invalidEdgeFunc (.func fn.toNat) s := by
  rw [exec, execEdgeDetect, hf]

end EdgeDetect

/-- Settles O20: 7 is the selector without a function, and the fault changes the status alone. -/
theorem edgeDetectFunctionSevenFaults : Obligations.EdgeDetectFunctionSevenFaults :=
  fun rd rs s => (exec_edgeDetect_invalid rd rs s ((edgeFn?_eq_none_iff 7#3).mpr rfl)).trans (raise_eq _ _ _ s)

/-- Settles O19: every selector but 7 names a function, whose test of the two bits is the value written. -/
theorem edgeDetectWritesTheEdgeTest : Obligations.EdgeDetectWritesTheEdgeTest := by
  refine ⟨fun b0 b1 _ h => ?decodes, fun rd rs fn s hfn => ?writes⟩
  case decodes =>
    exact (decode_two (o := .edgeDetect) (congrArg opClass? h)).trans (congrArg _ (decodeTwo_edgeDetect b0 b1))
  case writes =>
    intro o c
    obtain ⟨f, hf⟩ := Option.ne_none_iff_exists'.mp (mt (edgeFn?_eq_none_iff fn).mp hfn)
    have named {k : BitVec 3} {g : EdgeFn} (hg : edgeFn? k = some g) (hk : fn = k) : f = g :=
      Option.some.inj (hf.symm.trans (hk ▸ hg))
    refine ⟨_, edgeHolds f o c, exec_edgeDetect_valid rd rs s hf, s.setX_writes rd _, fun h => ?_, fun h => ?_,
      fun h => ?_, fun h => ?_, fun h => ?_, fun h => ?_, fun h => ?_⟩
    · exact named (g := .rising) rfl h ▸ edgeHolds_rising o c
    · exact named (g := .falling) rfl h ▸ edgeHolds_falling o c
    · exact named (g := .anyTransition) rfl h ▸ edgeHolds_anyTransition o c
    · exact named (g := .stableLow) rfl h ▸ edgeHolds_stableLow o c
    · exact named (g := .stableHigh) rfl h ▸ edgeHolds_stableHigh o c
    · exact named (g := .stable) rfl h ▸ edgeHolds_stable o c
    · exact named (g := .alwaysTrue) rfl h ▸ rfl

end Sys2Proof.Machine
end

section
/-! PROOFS. The four-byte instructions (spec/43_width4.md): JMPC, ARITH_OP, BIT_SLICE, LOAD. -/

namespace Sys2Proof

/-! ### The words, byte by byte -/

section Words
variable (b0 b1 b2 b3 : Byte)

theorem decodeFour_jmpc :
    decodeFour .jmpc (b0 ++ b1 ++ b2 ++ b3)
      = .instr (.jmpc (b0.extractLsb' 0 4) (b1.extractLsb' 4 4) (b1.extractLsb' 0 4) b2) := by
  simp only [decodeFour, Field.get, Layout.jmpcFn, Layout.jmpcRs1, Layout.jmpcRs2, Layout.jmpcOff,
    join4_fields b0 b1 b2 b3]

theorem decodeFour_bitSlice :
    decodeFour .bitSlice (b0 ++ b1 ++ b2 ++ b3)
      = .instr (.bitSlice (b0.extractLsb' 0 4) (b1.extractLsb' 4 4) ((b1 ++ b2).extractLsb' 7 5)
          (b2.extractLsb' 2 5)) := by
  simp only [decodeFour, Field.get, Layout.sliceRd, Layout.sliceRs, Layout.sliceStart, Layout.sliceEnd,
    join4_fields b0 b1 b2 b3]

theorem decodeFour_load :
    decodeFour .load (b0 ++ b1 ++ b2 ++ b3) = .instr (.load (b0.extractLsb' 0 4) (b1 ++ b2 ++ b3)) := by
  simp only [decodeFour, Field.get, Layout.loadRd, Layout.loadAddr, join4_fields b0 b1 b2 b3]

theorem decodeFour_arith_invalid (hf : arithFn? (b0.extractLsb' 0 4) = none) :
    decodeFour .arithOp (b0 ++ b1 ++ b2 ++ b3) = .invalidArithFunc (b0.extractLsb' 0 4) := by
  simp only [decodeFour, Field.get, Layout.arithFn, join4_fields b0 b1 b2 b3, hf]

end Words

end Sys2Proof

namespace Sys2Proof.Machine

/-! ### JMPC -/

section JmpcHolds
variable (rs1 rs2 : RegIdx) (s : State)

/-! The conditions on the unsigned values of the two registers (spec/43_width4.md R200). -/

theorem jmpcHolds_eq : jmpcHolds .eq rs1 rs2 s = true ↔ (s.x rs1).toNat = (s.x rs2).toNat :=
  beq_iff_eq.trans BitVec.toNat_inj.symm

theorem jmpcHolds_ne : jmpcHolds .ne rs1 rs2 s = true ↔ (s.x rs1).toNat ≠ (s.x rs2).toNat :=
  bne_iff_ne.trans (not_congr BitVec.toNat_inj.symm)

theorem jmpcHolds_gt : jmpcHolds .gt rs1 rs2 s = true ↔ (s.x rs1).toNat > (s.x rs2).toNat :=
  decide_eq_true_iff.trans BitVec.lt_def

theorem jmpcHolds_lt : jmpcHolds .lt rs1 rs2 s = true ↔ (s.x rs1).toNat < (s.x rs2).toNat :=
  decide_eq_true_iff.trans BitVec.lt_def

theorem jmpcHolds_ge : jmpcHolds .ge rs1 rs2 s = true ↔ (s.x rs1).toNat ≥ (s.x rs2).toNat :=
  decide_eq_true_iff.trans BitVec.le_def

theorem jmpcHolds_le : jmpcHolds .le rs1 rs2 s = true ↔ (s.x rs1).toNat ≤ (s.x rs2).toNat :=
  decide_eq_true_iff.trans BitVec.le_def

end JmpcHolds

section Jmpc
variable (rs1 rs2 : RegIdx) (off8 : BitVec 8) {fn : BitVec 4} (s : State)

theorem exec_jmpc_valid {f : JmpcFn} (hf : jmpcFn? fn = some f) :
    exec (.jmpc fn rs1 rs2 off8) s = .next { s with
      pc := if jmpcHolds f rs1 rs2 s then BitVec.ofInt 32 ((s.pc.toNat : Int) + off8.toInt) else s.pc } := by
  simp only [exec, execJmpc, hf, s.target_eq]
  split_ifs <;> rfl

theorem exec_jmpc_invalid (hf : jmpcFn? fn = none) :
    exec (.jmpc fn rs1 rs2 off8) s = raise (.jmpc fn rs1 rs2 off8) .invalidJmpcFunc (.func fn.toNat) s := by
  rw [exec, execJmpc, hf]

end Jmpc

/-- Settles O21: a selector below 8 names a function, whose condition decides the write of the pc alone. -/
theorem jmpcJumpsWhenTheConditionHolds : Obligations.JmpcJumpsWhenTheConditionHolds := by
  refine ⟨fun b0 b1 b2 b3 _ h => ?decodes, fun fn rs1 rs2 off8 s hfn => ?jumps⟩
  case decodes => exact (decode_four (o := .jmpc) (congrArg opClass? h)).trans (decodeFour_jmpc b0 b1 b2 b3)
  case jumps =>
    intro a b o c
    obtain ⟨f, hf⟩ := Option.ne_none_iff_exists'.mp (mt (jmpcFn?_eq_none_iff fn).mp (Nat.not_le.mpr hfn))
    have named {k : BitVec 4} {g : JmpcFn} (hg : jmpcFn? k = some g) (hk : fn = k) : f = g :=
      Option.some.inj (hf.symm.trans (hk ▸ hg))
    refine ⟨jmpcHolds f rs1 rs2 s, exec_jmpc_valid rs1 rs2 off8 s hf, fun h => ?_, fun h => ?_, fun h => ?_,
      fun h => ?_, fun h => ?_, fun h => ?_, fun h => ?_, fun h => ?_⟩
    · exact named (g := .eq) rfl h ▸ jmpcHolds_eq rs1 rs2 s
    · exact named (g := .ne) rfl h ▸ jmpcHolds_ne rs1 rs2 s
    · exact named (g := .gt) rfl h ▸ jmpcHolds_gt rs1 rs2 s
    · exact named (g := .lt) rfl h ▸ jmpcHolds_lt rs1 rs2 s
    · exact named (g := .ge) rfl h ▸ jmpcHolds_ge rs1 rs2 s
    · exact named (g := .le) rfl h ▸ jmpcHolds_le rs1 rs2 s
    · exact named (g := .rising) rfl h ▸ edgeHolds_rising o c
    · exact named (g := .falling) rfl h ▸ edgeHolds_falling o c

/-- Settles O22: 8 to 15 are the selectors without a function, and the fault changes the status alone. -/
theorem jmpcInvalidFunctionFaults : Obligations.JmpcInvalidFunctionFaults :=
  fun fn rs1 rs2 off8 s hfn =>
    (exec_jmpc_invalid rs1 rs2 off8 s ((jmpcFn?_eq_none_iff fn).mpr hfn)).trans (raise_eq _ _ _ s)

/-! ### ARITH_OP with an invalid function -/

theorem step_of_invalidArithFunc {s : State} {fn : BitVec 4} (hr : s.status = .running) (hl : s.dram.legal = true)
    (hf : fetch s = .invalidArithFunc fn) : step s = .next (arithFault fn s) := by
  rw [step_eq_cycle hr hl, cycle, hf]

/-- With four bytes in DRAM, the word's first byte alone gives the decoder the invalid selector. -/
theorem fetch_arith_invalid {s : State} (hb : s.dram.inBounds s.pc.toNat 4 = true)
    (hop : (s.dram.cells.read s.pc.toNat).extractLsb' 4 4 = 0xC#4)
    (hfn : arithFn? ((s.dram.cells.read s.pc.toNat).extractLsb' 0 4) = none) :
    fetch s = .invalidArithFunc ((s.dram.cells.read s.pc.toNat).extractLsb' 0 4) := by
  obtain ⟨rest, hf, hlen⟩ := exists_fetch_tail_long (k := 3) (by decide) hb
  match rest, hlen with
  | b1 :: b2 :: b3 :: _, _ =>
    rw [hf, decode_four (o := .arithOp) (congrArg opClass? hop), decodeFour_arith_invalid _ b1 b2 b3 hfn]

/-- Settles O28: the decoder names the invalid selector, and the step raises the fault behind the advanced pc. -/
theorem arithInvalidFunctionFaults : Obligations.ArithInvalidFunctionFaults :=
  fun _ hr hl hb hop hfn =>
    step_of_invalidArithFunc hr hl (fetch_arith_invalid hb hop ((arithFn?_eq_none_iff _).mpr hfn))

/-! ### The functions of ARITH_OP: each result in the spec's own terms -/

section ArithResult
variable (a b : Word)

theorem getLsbD_arithResult_and (k : Nat) :
    (arithResult .and a b).getLsbD k = (a.getLsbD k && b.getLsbD k) := BitVec.getLsbD_and

theorem getLsbD_arithResult_or (k : Nat) :
    (arithResult .or a b).getLsbD k = (a.getLsbD k || b.getLsbD k) := BitVec.getLsbD_or

theorem getLsbD_arithResult_xor (k : Nat) :
    (arithResult .xor a b).getLsbD k = (a.getLsbD k != b.getLsbD k) := BitVec.getLsbD_xor

theorem eq_allOnes_iff_getLsbD : a = 0xFFFFFFFF#32 ↔ ∀ k, k < 32 → a.getLsbD k = true := by
  rw [show 0xFFFFFFFF#32 = BitVec.allOnes 32 from rfl, BitVec.eq_of_getLsbD_eq_iff]
  refine forall₂_congr fun k hk => ?_
  rw [BitVec.getLsbD_allOnes, decide_eq_true hk]

theorem eq_zero_iff_getLsbD : a = 0#32 ↔ ∀ k, k < 32 → a.getLsbD k = false := by
  simp only [BitVec.eq_of_getLsbD_eq_iff, BitVec.getLsbD_zero]

theorem arithResult_redand_of_forall (h : ∀ k, k < 32 → a.getLsbD k = true) : arithResult .redand a b = 1#32 :=
  if_pos ((eq_allOnes_iff_getLsbD a).mpr h)

theorem arithResult_redand_of_exists (h : ∃ k, k < 32 ∧ a.getLsbD k = false) : arithResult .redand a b = 0#32 := by
  obtain ⟨k, hk, hbit⟩ := h
  exact if_neg fun hones => nomatch hbit.symm.trans ((eq_allOnes_iff_getLsbD a).mp hones k hk)

theorem arithResult_redor_of_exists (h : ∃ k, k < 32 ∧ a.getLsbD k = true) : arithResult .redor a b = 1#32 := by
  obtain ⟨k, hk, hbit⟩ := h
  exact if_pos fun hzero => nomatch hbit.symm.trans ((eq_zero_iff_getLsbD a).mp hzero k hk)

theorem arithResult_redor_of_forall (h : ∀ k, k < 32 → a.getLsbD k = false) : arithResult .redor a b = 0#32 :=
  if_neg (not_not.mpr ((eq_zero_iff_getLsbD a).mpr h))

theorem popcount_eq_card : popcount a = ((Finset.range 32).filter (fun k => a.getLsbD k = true)).card :=
  List.countP_eq_length_filter.trans
    (congrArg List.length (List.filter_congr fun _ _ => Bool.decide_eq_true.symm))

theorem toNat_arithResult_redxor :
    (arithResult .redxor a b).toNat = ((Finset.range 32).filter (fun k => a.getLsbD k = true)).card % 2 := by
  rw [arithResult, ← popcount_eq_card, BitVec.toNat_ofNat]
  omega

theorem toNat_arithResult_concat :
    (arithResult .concat a b).toNat = a.toNat % 65536 * 65536 + b.toNat % 65536 := by
  have hlow : (b.extractLsb' 0 16).toNat = b.toNat % 65536 := by simp
  have hhigh : (concatFirst Readings.concatSrc1Half a).toNat = a.toNat % 65536 := by
    simp [concatFirst, Readings.concatSrc1Half]
  rw [arithResult, BitVec.toNat_append, hlow, hhigh, ← Nat.shiftLeft_add_eq_or_of_lt (by omega), Nat.shiftLeft_eq]

theorem toNat_arithResult_add : ((arithResult .add a b).toNat : Int) = (a.toNat + b.toNat : Int) % 2 ^ 32 := by
  simp [arithResult, BitVec.toNat_add]

theorem toNat_arithResult_sub : ((arithResult .sub a b).toNat : Int) = (a.toNat - b.toNat : Int) % 2 ^ 32 := by
  rw [arithResult, BitVec.toNat_sub]
  omega

end ArithResult

/-- An ARITH_OP writes its function's result to `rd` and changes nothing else (spec/43_width4.md R201). -/
theorem exec_arith_writes (f : ArithFn) (rd rs1 rs2 : RegIdx) (s : State) :
    ∃ t, exec (f.instr rd rs1 rs2) s = .next t ∧
      WritesReg s t (fieldReg rd) (arithResult f (s.x rs1) (s.x rs2)) :=
  ⟨_, by cases f <;> rfl, s.setX_writes rd _⟩

/-- The same, the result known by what it satisfies. -/
theorem exec_arith_writes_of {P : Word → Prop} (f : ArithFn) {rd rs1 rs2 : RegIdx} {s : State}
    (h : P (arithResult f (s.x rs1) (s.x rs2))) :
    ∃ t v, exec (f.instr rd rs1 rs2) s = .next t ∧ WritesReg s t (fieldReg rd) v ∧ P v := by
  obtain ⟨t, he, hw⟩ := exec_arith_writes f rd rs1 rs2 s
  exact ⟨t, _, he, hw, h⟩

/-- Settles O23: three selectors of the table, each result read bit by bit. -/
theorem bitwiseFunctionsWriteTheirResult : Obligations.BitwiseFunctionsWriteTheirResult := by
  refine ⟨fun _ _ _ _ => ⟨decode_arith (f := .and) rfl rfl, decode_arith (f := .or) rfl rfl,
    decode_arith (f := .xor) rfl rfl⟩, fun rd rs1 rs2 s => ⟨?and, ?or, ?xor⟩⟩
  case and => exact exec_arith_writes_of .and (getLsbD_arithResult_and _ _)
  case or => exact exec_arith_writes_of .or (getLsbD_arithResult_or _ _)
  case xor => exact exec_arith_writes_of .xor (getLsbD_arithResult_xor _ _)

/-- Settles O24: three selectors of the table, each result by a property of the 32 bits of `rs1`. -/
theorem reductionsWriteTheirResult : Obligations.ReductionsWriteTheirResult := by
  refine ⟨fun _ _ _ _ => ⟨decode_arith (f := .redand) rfl rfl, decode_arith (f := .redor) rfl rfl,
    decode_arith (f := .redxor) rfl rfl⟩, fun rd rs1 rs2 s => ⟨?redand, ?redor, ?redxor⟩⟩
  case redand =>
    exact exec_arith_writes_of .redand ⟨arithResult_redand_of_forall _ _, arithResult_redand_of_exists _ _⟩
  case redor => exact exec_arith_writes_of .redor ⟨arithResult_redor_of_exists _ _, arithResult_redor_of_forall _ _⟩
  case redxor => exact exec_arith_writes_of .redxor (toNat_arithResult_redxor _ _)

/-- Settles O25: the value of one half word above another. -/
theorem concatJoinsTheLowHalves : Obligations.ConcatJoinsTheLowHalves :=
  ⟨fun _ _ _ _ => decode_arith (f := .concat) rfl rfl,
    fun _ _ _ _ => exec_arith_writes_of .concat (toNat_arithResult_concat _ _)⟩

/-- Settles O26: the function's result is the constant. -/
theorem isunkWritesOne : Obligations.IsunkWritesOne :=
  ⟨fun _ _ _ _ => decode_arith (f := .isunk) rfl rfl, exec_arith_writes .isunk⟩

/-- Settles O27: sum and difference of the unsigned values, reduced over the integers. -/
theorem addAndSubWrapModulo : Obligations.AddAndSubWrapModulo :=
  ⟨fun _ _ _ _ => ⟨decode_arith (f := .add) rfl rfl, decode_arith (f := .sub) rfl rfl⟩,
    fun _ _ _ _ => ⟨exec_arith_writes_of .add (toNat_arithResult_add _ _),
      exec_arith_writes_of .sub (toNat_arithResult_sub _ _)⟩⟩

/-! ### BIT_SLICE -/

theorem getLsbD_sliceResult (v : Word) (start stop : BitVec 5) (k : Nat) :
    (sliceResult v start stop).getLsbD k
      = (decide (k ≤ stop.toNat - start.toNat) && v.getLsbD (start.toNat + k)) := by
  have hstop := stop.isLt
  have hrange : k < 32 ∧ k < stop.toNat - start.toNat + 1 ↔ k ≤ stop.toNat - start.toNat := by omega
  rw [sliceResult, BitVec.getLsbD_setWidth, BitVec.getLsbD_extractLsb', ← Bool.and_assoc, ← Bool.decide_and,
    decide_eq_decide.mpr hrange]

theorem exec_bitSlice_valid (rd rs : RegIdx) {start stop : BitVec 5} (h : start.toNat ≤ stop.toNat) (s : State) :
    exec (.bitSlice rd rs start stop) s = .next (s.setX rd (sliceResult (s.x rs) start stop)) :=
  if_neg (Nat.not_lt.mpr h)

/-- Settles O29: the order of the two bounds decides between one register write and the fault. -/
theorem bitSliceExtractsOrFaults : Obligations.BitSliceExtractsOrFaults := by
  refine ⟨fun b0 b1 b2 b3 _ h => ?decodes, fun rd rs start stop s =>
    ⟨fun h => ?writes, fun h => exec_bitSlice_fault rd rs h s⟩⟩
  case decodes => exact (decode_four (o := .bitSlice) (congrArg opClass? h)).trans (decodeFour_bitSlice b0 b1 b2 b3)
  case writes => exact ⟨_, _, exec_bitSlice_valid rd rs h s, s.setX_writes rd _, getLsbD_sliceResult _ start stop⟩

/-! ### LOAD -/

theorem exec_load_hit (rd : RegIdx) {k : BitVec 24} {v : Word} {s : State}
    (h : s.info.signal (k.setWidth 32) = some v) : exec (.load rd k) s = .next (s.setX rd v) := by
  simp only [exec, execLoad, signalKey, h]

/-- Settles O30: the lookup at the zero-extended key decides between one register write and the fault. -/
theorem loadReadsTheSignalTable : Obligations.LoadReadsTheSignalTable := by
  refine ⟨fun b0 b1 b2 b3 _ h => ?decodes, fun rd k s => ?reads⟩
  case decodes => exact (decode_four (o := .load) (congrArg opClass? h)).trans (decodeFour_load b0 b1 b2 b3)
  case reads =>
    rw [BitVec.ofNat_toNat]
    exact ⟨fun v hit => ⟨_, exec_load_hit rd hit, s.setX_writes rd v⟩, exec_load_fault rd⟩

end Sys2Proof.Machine
end

section
/-! PROOFS. The eight-byte instruction (spec/44_width8.md): MOVI. -/

namespace Sys2Proof

/-! ### The window of MOVI -/

/-- A field of a field: `f'` is `f` counted from the lowest bit of `g`. -/
theorem Field.get_get {w w' n : Nat} {f : Field w} {g : Field w'} (f' : Field w) (hlo : f.lo = g.lo + f'.lo)
    (hf : f'.lo + w ≤ w') (v : BitVec n) : f'.get (g.get v) = f.get v := by
  apply BitVec.eq_of_getLsbD_eq
  intro k hk
  have hinside : f'.lo + k < w' := by omega
  simp [Field.get, hlo, hk, hinside, Nat.add_assoc]

/-- The low bits of two words joined, more of them than the second word has. -/
theorem setWidth_append_low {v u : Nat} (x : BitVec v) (y : BitVec u) (t : Nat) :
    (x ++ y).setWidth (t + u) = x.setWidth t ++ y := by
  rw [BitVec.setWidth_append_of_eq rfl, BitVec.setWidth_eq]

section Window
variable (b0 b1 b2 b3 b4 b5 b6 b7 : Byte)

/-- Six bytes without their first. -/
theorem setWidth_join6 :
    BitVec.setWidth (w := 48) 40 (b0 ++ b1 ++ b2 ++ b3 ++ b4 ++ b5) = (b1 ++ b2 ++ b3 ++ b4 ++ b5 : BitVec 40) := by
  rw [setWidth_append_low _ b5 32, setWidth_append_low _ b4 24, setWidth_append_low _ b3 16,
    setWidth_append_low _ b2 8, BitVec.setWidth_append_eq_right]

/-- MOVI's reserved bit stands where MOV's discriminator does (spec/30_encoding.md R83, R103). -/
theorem window_moviRsv :
    Layout.moviRsv.get (n := 64) (b0 ++ b1 ++ b2 ++ b3 ++ b4 ++ b5 ++ b6 ++ b7) = b0.extractLsb' 3 1 :=
  window_d b0 b1 b2 b3 b4 b5 b6 b7

/-- MOVI's destination stands where MOV's does (spec/30_encoding.md R94, R103). -/
theorem window_moviRd :
    Layout.moviRd.get (n := 64) (b0 ++ b1 ++ b2 ++ b3 ++ b4 ++ b5 ++ b6 ++ b7) = (b0 ++ b1).extractLsb' 7 4 := by
  have hrd := Field.get_get (f := Layout.moviRd) (g := Layout.windowHalf) (n := 64) Layout.movRd rfl (by decide)
  rw [← hrd, window_half]
  rfl

/-- The immediate lies in the second to the sixth byte: the two bytes behind it and the first byte drop out. -/
theorem window_moviImm :
    Layout.moviImm.get (n := 64) (b0 ++ b1 ++ b2 ++ b3 ++ b4 ++ b5 ++ b6 ++ b7)
      = (b1 ++ b2 ++ b3 ++ b4 ++ b5).extractLsb' 7 32 :=
  calc
    _ = BitVec.extractLsb' 15 32 (b0 ++ b1 ++ b2 ++ b3 ++ b4 ++ b5 ++ b6) :=
      BitVec.extractLsb'_append_eq_of_le (by decide)
    _ = BitVec.extractLsb' 7 32 (b0 ++ b1 ++ b2 ++ b3 ++ b4 ++ b5) := BitVec.extractLsb'_append_eq_of_le (by decide)
    _ = BitVec.extractLsb' 7 32 (BitVec.setWidth 40 (b0 ++ b1 ++ b2 ++ b3 ++ b4 ++ b5)) :=
      (BitVec.extractLsb'_setWidth_of_le (by decide)).symm
    _ = BitVec.extractLsb' 7 32 (b1 ++ b2 ++ b3 ++ b4 ++ b5) := congrArg _ (setWidth_join6 b0 b1 b2 b3 b4 b5)

/-- A window of the move family that is no MOV's: the discriminator clear, or a byte behind the first half set
(spec/30_encoding.md R83). -/
theorem decodeMove_of_not_mov
    (h : b0.getLsbD 3 = false ∨ b2 ++ b3 ++ b4 ++ b5 ++ b6 ++ b7 ≠ 0#48) :
    decodeMove (b0 ++ b1 ++ b2 ++ b3 ++ b4 ++ b5 ++ b6 ++ b7)
      = .movi (b0.extractLsb' 3 1) ((b0 ++ b1).extractLsb' 7 4) ((b1 ++ b2 ++ b3 ++ b4 ++ b5).extractLsb' 7 32) := by
  have hmovi : ¬ (b0.extractLsb' 3 1 = 1#1 ∧ b2 ++ b3 ++ b4 ++ b5 ++ b6 ++ b7 = 0#48) := by
    rw [discriminator_eq_one_iff, not_and_or, Bool.not_eq_true]
    exact h
  rw [decodeMove, window_d, window_rest, if_neg hmovi, window_moviRsv, window_moviRd, window_moviImm]

end Window

end Sys2Proof

namespace Sys2Proof.Machine

/-! ### MOVI -/

section Movi
variable (rd : RegIdx) (imm : BitVec 32) (s : State)

theorem exec_movi_writes : exec (.movi 0 rd imm) s = .next (s.setX rd imm) := by
  rw [exec, execMovi, if_neg (by decide)]

theorem exec_movi_reserved :
    exec (.movi 1 rd imm) s = raise (.movi 1 rd imm) .malformedMovi .none s := by
  rw [exec, execMovi, if_pos (by decide)]

end Movi

/-- Settles O31: the window is no MOV's, and its reserved bit decides between one register write and the fault. -/
theorem moviWritesTheImmediateOrFaults : Obligations.MoviWritesTheImmediateOrFaults := by
  refine ⟨fun b0 b1 b2 b3 b4 b5 b6 b7 _ hop h => ?decodes, fun rd imm s => ⟨?writes, ?faults⟩⟩
  case decodes =>
    exact (decode_move (congrArg opClass? hop)).trans
      (congrArg _ (decodeMove_of_not_mov b0 b1 b2 b3 b4 b5 b6 b7 h))
  case writes => exact ⟨_, exec_movi_writes rd imm s, s.setX_writes rd imm⟩
  case faults => exact (exec_movi_reserved rd imm s).trans (raise_eq _ _ _ s)

end Sys2Proof.Machine
end

section
/-! PROOFS. Exceptions (spec/60_exceptions.md): the tick of the timers, how often a timer fires, what a step adds to the
trace, and the fault record. -/

namespace Sys2Proof.Machine

/-! ### One tick -/

section OneTick
variable {t : TimerId} {s : State} (he : (s.timer t).enabled = true)
include he

theorem tickTimer_of_counts (hc : (s.timer t).count + 1#32 < (s.timer t).threshold) :
    tickTimer t s = s.setTimer t { s.timer t with count := (s.timer t).count + 1#32 } := by
  simp [tickTimer, he, BitVec.not_le.mpr hc]

variable (hc : (s.timer t).count + 1#32 ≥ (s.timer t).threshold)
include hc

theorem tickTimer_of_fires (htarget : (s.timer t).targetPc ≠ 0#32) :
    tickTimer t s = { s.setTimer t { s.timer t with count := 0#32 } with
      pc := (s.timer t).targetPc, trace := s.trace ++ [.event (.timerFired t (s.timer t).targetPc)] } := by
  simp [tickTimer, he, hc, htarget, State.emit, State.setPc]

theorem tickTimer_of_no_target (htarget : (s.timer t).targetPc = 0#32) :
    tickTimer t s = { s.setTimer t { s.timer t with count := 0#32 } with
      trace := s.trace ++ [.warning (.timerNoTarget t)] } := by
  simp [tickTimer, he, hc, htarget, State.warn]

end OneTick

/-- Settles O36, one equation for each case. -/
theorem oneTimerTicksAsListed : Obligations.OneTimerTicksAsListed :=
  fun _ _ => ⟨tickTimer_of_disabled, tickTimer_of_counts, tickTimer_of_fires, tickTimer_of_no_target⟩

@[simp] theorem tickedTimer_enabled (r : Timer) : (tickedTimer r).enabled = r.enabled := by
  unfold tickedTimer; split_ifs <;> rfl

/-- What a timer is after the tick depends on that timer alone. -/
theorem timerTick_timer_congr {s s' : State} {k : TimerId} (h : s.timer k = s'.timer k) :
    (timerTick s).timer k = (timerTick s').timer k := by
  rw [timerTick_timer, timerTick_timer, h]

theorem tickPc_kept_or_const (r : Timer) : (∀ pc, tickPc r pc = pc) ∨ ∀ pc, tickPc r pc = r.targetPc := by
  by_cases h : r.redirects
  · exact .inr fun pc => tickPc_of_redirects pc h
  · exact .inl fun pc => tickPc_of_not_redirects pc h

/-- Settles O37: the frame of the tick, and what it adds and writes as functions of the two timers. -/
theorem tickTouchesOnlyTimersPcAndTrace : Obligations.TickTouchesOnlyTimersPcAndTrace := by
  refine ⟨fun s => ?frame, fun s s' h0 h1 => ⟨?timer0, ?timer1, ?trace, ?pc⟩⟩
  case frame => simp [timerTick_timer]
  case timer0 => exact timerTick_timer_congr (k := .t0) h0
  case timer1 => exact timerTick_timer_congr (k := .t1) h1
  case trace =>
    refine ⟨tickItems .t0 s.timer0 ++ tickItems .t1 s.timer1, ?_, ?_⟩
    · rw [timerTick_trace, List.append_assoc]
    · rw [timerTick_trace, List.append_assoc, h0, h1]
  case pc =>
    rw [timerTick_pc, timerTick_pc, ← h0, ← h1]
    rcases tickPc_kept_or_const s.timer1 with hkept1 | hset1
    · rw [hkept1, hkept1]
      exact (tickPc_kept_or_const s.timer0).imp (fun hkept0 => ⟨hkept0 _, hkept0 _⟩)
        (fun hset0 => (hset0 _).trans (hset0 _).symm)
    · exact .inr ((hset1 _).trans (hset1 _).symm)

theorem tickedTimer_of_reaches {r : Timer} (h : r.reaches) : tickedTimer r = { r with count := 0#32 } := by
  rw [tickedTimer, if_pos h.1, if_pos h.2]

theorem timerTick_count_of_reaches {s : State} {k : TimerId} (h : (s.timer k).reaches) :
    ((timerTick s).timer k).count = 0#32 := by
  rw [timerTick_timer, tickedTimer_of_reaches h]

theorem tickItems_of_reaches (t : TimerId) {r : Timer} (h : r.reaches) : tickItems t r = [firedEntry t r] := by
  rw [tickItems, if_pos h.1, if_pos h.2, firedEntry]
  split_ifs <;> rfl

theorem tickItems_of_not_reaches (t : TimerId) {r : Timer} (h : ¬ r.reaches) : tickItems t r = [] := by
  unfold tickItems
  split_ifs with he hc
  · exact absurd ⟨he, hc⟩ h
  · exact absurd ⟨he, hc⟩ h
  · rfl
  · rfl

theorem firedEntry_of_target (t : TimerId) {r : Timer} (h : r.targetPc ≠ 0#32) :
    firedEntry t r = .event (.timerFired t r.targetPc) := if_neg h

/-- Settles O38: both timers redirect, and timer 1 is the last to write the pc. -/
theorem timerOneWinsWhenBothFire : Obligations.TimerOneWinsWhenBothFire := by
  intro s he0 he1 hc0 hc1 ht0 ht1
  have h0 : s.timer0.reaches := ⟨he0, hc0⟩
  have h1 : s.timer1.reaches := ⟨he1, hc1⟩
  refine ⟨?_, timerTick_count_of_reaches (k := .t0) h0, timerTick_count_of_reaches (k := .t1) h1, ?_⟩
  · rw [timerTick_pc, tickPc_of_redirects _ ⟨h1, ht1⟩]
  · rw [timerTick_trace, tickItems_of_reaches _ h0, tickItems_of_reaches _ h1, firedEntry_of_target _ ht0,
      firedEntry_of_target _ ht1, List.append_assoc]
    rfl

/-! ### Any number of ticks -/

/-- On every how many-th tick an enabled timer fires (spec/60_exceptions.md R257). -/
def Timer.period (r : Timer) : Nat := max r.threshold.toNat 1

/-- The timer with its count at `m`. -/
def Timer.withCount (r : Timer) (m : Nat) : Timer := { r with count := BitVec.ofNat 32 m }

/-- The trace entries of timer `t` with the given target. -/
def isEntryOf (t : TimerId) (target : Word) (item : TraceItem) : Bool :=
  item = .event (.timerFired t target) || item = .warning (.timerNoTarget t)

theorem isEntryOf_firedEntry (t : TimerId) (r : Timer) : isEntryOf t r.targetPc (firedEntry t r) = true := by
  unfold firedEntry
  split_ifs <;> simp [isEntryOf]

theorem Timer.period_pos (r : Timer) : 0 < r.period := Nat.lt_of_lt_of_le Nat.one_pos (Nat.le_max_right _ _)

theorem Timer.period_lt (r : Timer) : r.period < 2 ^ 32 := max_lt r.threshold.isLt (by decide)

section Periodic
variable {r : Timer} {m : Nat}

theorem Timer.withCount_toNat (hm : m < r.period) : (r.withCount m).count.toNat = m :=
  BitVec.toNat_ofNat m 32 ▸ Nat.mod_eq_of_lt (hm.trans r.period_lt)

theorem Timer.withCount_zero (h : r.count = 0#32) : r.withCount 0 = r := by
  rw [withCount, ← h]

variable (he : r.enabled = true) (hm : m < r.period)
include hm

/-- Below the period the increment does not wrap. -/
theorem Timer.withCount_add_one_toNat : ((r.withCount m).count + 1#32).toNat = m + 1 := by
  have hwrap : m + 1 < 2 ^ 32 := Nat.lt_of_le_of_lt hm r.period_lt
  rw [BitVec.toNat_add, withCount_toNat hm]
  exact Nat.mod_eq_of_lt hwrap

include he

theorem Timer.withCount_reaches_iff : (r.withCount m).reaches ↔ m + 1 = r.period := by
  have hcompare : (r.withCount m).reaches ↔ r.threshold.toNat ≤ m + 1 := by
    rw [← withCount_add_one_toNat hm]
    exact and_iff_right he
  rw [hcompare]
  unfold period at hm ⊢
  omega

theorem tickedTimer_withCount : tickedTimer (r.withCount m) = r.withCount ((m + 1) % r.period) := by
  by_cases h : m + 1 = r.period
  · rw [tickedTimer_of_reaches ((Timer.withCount_reaches_iff he hm).mpr h), h, Nat.mod_self]
    rfl
  · have hlt : m + 1 < r.period := Nat.lt_of_le_of_ne hm h
    have hbelow : ¬ (r.withCount m).threshold ≤ (r.withCount m).count + 1#32 :=
      fun hc => h ((Timer.withCount_reaches_iff he hm).mp ⟨he, hc⟩)
    have hcount : (r.withCount m).count + 1#32 = BitVec.ofNat 32 (m + 1) := (BitVec.ofNat_add m 1).symm
    rw [tickedTimer, if_pos (show (r.withCount m).enabled = true from he), if_neg hbelow, Nat.mod_eq_of_lt hlt, hcount]
    rfl

theorem countP_tickItems_withCount (t : TimerId) :
    (tickItems t (r.withCount m)).countP (isEntryOf t r.targetPc) = if m + 1 = r.period then 1 else 0 := by
  by_cases h : m + 1 = r.period
  · have hmine : isEntryOf t r.targetPc (firedEntry t (r.withCount m)) = true := isEntryOf_firedEntry t r
    rw [tickItems_of_reaches t ((Timer.withCount_reaches_iff he hm).mpr h), if_pos h, List.countP_singleton,
      if_pos hmine]
  · rw [tickItems_of_not_reaches t (mt (Timer.withCount_reaches_iff he hm).mp h), if_neg h, List.countP_nil]

end Periodic

/-- A timer's entries name that timer. -/
theorem countP_tickItems_other {t k : TimerId} (hk : k ≠ t) (target : Word) (r : Timer) :
    (tickItems k r).countP (isEntryOf t target) = 0 := by
  unfold tickItems
  split_ifs <;> simp [isEntryOf, hk]

theorem countP_timerTick_trace (t : TimerId) (target : Word) (s : State) :
    (timerTick s).trace.countP (isEntryOf t target) =
      s.trace.countP (isEntryOf t target) + (tickItems t (s.timer t)).countP (isEntryOf t target) := by
  rw [timerTick_trace, List.countP_append, List.countP_append]
  cases t with
  | t0 => rw [countP_tickItems_other (k := .t1) (by decide), Nat.add_zero]; rfl
  | t1 => rw [countP_tickItems_other (k := .t0) (by decide), Nat.add_zero]; rfl

/-- The quotient goes up exactly where the remainder goes back to 0. -/
theorem succ_div_eq_add_ite {p : Nat} (hp : 0 < p) (n : Nat) :
    (n + 1) / p = n / p + if n % p + 1 = p then 1 else 0 := by
  obtain ⟨q, rfl⟩ := Nat.exists_eq_add_one_of_ne_zero hp.ne'
  have hiff : q + 1 ∣ n + 1 ↔ n % (q + 1) + 1 = q + 1 := by
    rw [Nat.dvd_iff_mod_eq_zero, Nat.succ_mod_succ_eq_zero_iff, Nat.add_right_cancel_iff]
  rw [Nat.succ_div, if_congr hiff rfl rfl]

section ManyTicks
variable {t : TimerId} {s : State} (he : (s.timer t).enabled = true) (h0 : (s.timer t).count = 0#32) (n : Nat)
include he h0

theorem timer_timerTick_iterate :
    (timerTick^[n] s).timer t = (s.timer t).withCount (n % (s.timer t).period) := by
  induction n with
  | zero => rw [Nat.zero_mod, Timer.withCount_zero h0]; rfl
  | succ n ih =>
    rw [Function.iterate_succ_apply', timerTick_timer, ih, tickedTimer_withCount he (Nat.mod_lt _ (Timer.period_pos _)),
      Nat.mod_add_mod]

theorem countP_timerTick_iterate :
    (timerTick^[n] s).trace.countP (isEntryOf t (s.timer t).targetPc) =
      s.trace.countP (isEntryOf t (s.timer t).targetPc) + n / (s.timer t).period := by
  have hp := (s.timer t).period_pos
  induction n with
  | zero => rw [Nat.zero_div]; rfl
  | succ n ih =>
    rw [Function.iterate_succ_apply', countP_timerTick_trace, ih, timer_timerTick_iterate he h0,
      countP_tickItems_withCount he (Nat.mod_lt _ hp), succ_div_eq_add_ite hp, Nat.add_assoc]

end ManyTicks

/-- Settles O39, by induction on the number of ticks: the count is the number of ticks modulo the period. -/
theorem enabledTimerFiresPeriodically : Obligations.EnabledTimerFiresPeriodically := by
  intro t s n he h0 period mine
  have htimer := timer_timerTick_iterate he h0 n
  refine ⟨?_, ?_, countP_timerTick_iterate he h0 n⟩
  · rw [htimer]
    exact Timer.withCount_toNat (Nat.mod_lt _ (Timer.period_pos _))
  · rw [htimer]
    exact he

/-! ### The trace of a step -/

theorem timerTick_trace_grows (s : State) :
    ∃ items, (timerTick s).trace = s.trace ++ items ∧ items.length ≤ 2 := by
  refine ⟨_, (timerTick_trace s).trans (List.append_assoc _ _ _), ?_⟩
  rw [List.length_append]
  exact Nat.add_le_add (tickItems_length .t0 s.timer0) (tickItems_length .t1 s.timer1)

/-- Settles O57: a fatal fault adds nothing; a whole cycle adds what the instruction and the tick add. -/
theorem traceGrowsByAtMostThree : Obligations.TraceGrowsByAtMostThree := by
  intro s t h
  have unchanged : s.trace = s.trace ++ [] := (List.append_nil _).symm
  rcases step_next_cases h with
    ⟨-, rfl⟩ | ⟨-, ⟨r, -, rfl⟩ | ⟨fn, -, rfl⟩ | ⟨i, -, _, _, rfl, -⟩ | ⟨i, u, items, -, hC, rfl⟩⟩
  · exact ⟨[], unchanged, Nat.zero_le _⟩
  · exact ⟨[], unchanged, Nat.zero_le _⟩
  · exact ⟨[], unchanged, Nat.zero_le _⟩
  · exact ⟨[], unchanged, Nat.zero_le _⟩
  · obtain ⟨ticked, htrace, hlen⟩ := timerTick_trace_grows (snapshot s.latch u)
    refine ⟨items ++ ticked, ?_, ?_⟩
    · rw [check_trace, htrace, snapshot_trace, hC.trace, State.advance_trace, List.append_assoc]
    · rw [List.length_append]
      exact Nat.add_le_add hC.short hlen

/-! ### The fault record -/

/-- The opcode nibble that a fault record gets from what the fetch answered (spec/60_exceptions.md R241). -/
def recordedOp : DecodeResult → Option (BitVec 4)
  | .instr i => some i.op
  | .invalidArithFunc _ => some (opNibble (.four .arithOp))
  | .reject r => FetchReject.op r

theorem recordedOp_decode_cons (b0 : Byte) (rest : List Byte) :
    recordedOp (decode (b0 :: rest)) = some (b0.extractLsb' 4 4) := by
  have instr {i : Instr} {c : OpClass} (hc : opClass? (Layout.firstByteOp.get b0) = some c) (hi : i.opClass = c) :
      recordedOp (.instr i) = some (b0.extractLsb' 4 4) := congrArg some (opNibble_of_opClass? (hi ▸ hc))
  rcases decode_cons_cases b0 rest with ⟨-, h⟩ | ⟨o, hc, h⟩ | ⟨o, hc, ⟨-, h⟩ | ⟨_, _, -, h⟩⟩ |
    ⟨o, hc, ⟨-, h⟩ | ⟨b1, b2, b3, _, -, h⟩⟩ | ⟨hc, ⟨-, h⟩ | ⟨_, _, _, _, _, _, _, _, -, h⟩⟩ <;> rw [h]
  case inr.inl => exact instr hc (opClass_decodeOne o b0)
  case inr.inr.inl.inr => exact instr hc (opClass_decodeTwo o _)
  case inr.inr.inr.inl.inr =>
    rcases decodeFour_cases o (b0 ++ b1 ++ b2 ++ b3) with ⟨i, hd, hi⟩ | ⟨rfl, fn, hd, -⟩ <;> rw [hd]
    · exact instr hc hi
    · exact congrArg some (opNibble_of_opClass? hc)
  case inr.inr.inr.inr.inr => exact instr hc (opClass_decodeMove _)
  all_goals rfl

/-- The recorded nibble is that of the byte at the pc, where there is one. -/
theorem recordedOp_fetch (s : State) :
    recordedOp (fetch s) =
      if s.dram.inBounds s.pc.toNat 1 = true then some ((s.dram.cells.read s.pc.toNat).extractLsb' 4 4) else none := by
  by_cases h : s.dram.inBounds s.pc.toNat 1 = true
  · rw [if_pos h, fetch_eq_cons h, recordedOp_decode_cons]
  · rw [if_neg h, fetch_eq_nil (Bool.eq_false_iff.mpr h)]
    rfl

theorem FetchReject.atFetch_code (r : FetchReject) : (FetchReject.code r).atFetch = true := by cases r <;> rfl

theorem FaultCode.pcAdvance_of_atFetch {code : FaultCode} (h : code.atFetch = true) : code.pcAdvance = 0 := by
  cases code with
  | unknownOpcode | fetchOutOfRange => rfl
  | _ => cases h

/-- What a step that ends with a fatal fault records, and where it leaves the pc. -/
structure RecordsFault (s t : State) (rec : FaultRecord) : Prop where
  faultPc : rec.faultPc = s.pc
  pc : t.pc = s.pc + BitVec.ofNat 32 rec.code.pcAdvance
  width : rec.code.atFetch = false → ∃ w, rec.width = some w ∧ w.bytes = rec.code.pcAdvance
  op : rec.op = recordedOp (fetch s)

/-- The three places a fatal fault comes from. -/
theorem step_recordsFault {s t : State} {rec : FaultRecord} (hr : s.status = .running) (h : step s = .next t)
    (ht : t.status = .faulted rec) : RecordsFault s t rec := by
  rcases step_next_cases h with ⟨hn, -⟩ | ⟨-, ⟨r, hf, rfl⟩ | ⟨fn, hf, rfl⟩ | ⟨i, hf, code, info, rfl, hstage, hadv⟩ |
    ⟨i, u, items, -, hC, rfl⟩⟩
  · exact absurd hr hn
  · cases ht
    refine ⟨rfl, ?_, fun hstage => (nomatch hstage.symm.trans (FetchReject.atFetch_code r)), ?_⟩
    · simp [FetchReject.record, FetchReject.pcAdvance_code]
    · rw [hf]; rfl
  · cases ht
    refine ⟨rfl, rfl, fun _ => ⟨.w4, rfl, rfl⟩, ?_⟩
    rw [hf]; rfl
  · cases ht
    refine ⟨BitVec.add_sub_cancel _ _, ?_, fun _ => ⟨i.width, rfl, hadv.symm⟩, ?_⟩
    · rw [hadv]; rfl
    · rw [hf]; rfl
  · have hstatus := CycleCompletes.status ⟨_, u, items, hC, rfl⟩ hr
    rw [ht] at hstatus
    split_ifs at hstatus

/-- Settles O46, from what a faulting step records and what the fetch says of the nibble. -/
theorem faultRecordNamesTheInstruction : Obligations.FaultRecordNamesTheInstruction := by
  intro s t rec hr h ht
  obtain ⟨hfaultPc, hpc, hwidth, hop⟩ := step_recordsFault hr h ht
  refine ⟨hfaultPc, hpc, hwidth, fun hfetch => ?_, ?_⟩
  · rw [hpc, FaultCode.pcAdvance_of_atFetch hfetch]
    exact BitVec.add_zero _
  · rw [hop, recordedOp_fetch]
    by_cases hb : s.dram.inBounds s.pc.toNat 1 = true <;> simp [hb]

end Sys2Proof.Machine
end

section
/-! PROOFS. Reset and boot (spec/70_reset_and_hazards.md R280, R283, R285): what a launch leaves, and that a legal one
establishes the block invariant. -/

namespace Sys2Proof.Machine

/-! ### What a launch leaves -/

/-- Every register, the hard-wired one included, reads 0 after reset. -/
@[simp] theorem State.launch_getReg (p : Launch) (contents : Memory) (i : Fin 17) :
    (State.launch p contents).getReg i = 0#32 := by
  by_cases h : i = 0
  · rw [h, State.getReg_zero]
  · rw [State.getReg_of_ne _ h]
    exact Vector.getElem_replicate i.isLt

@[simp] theorem State.launch_prevAt (p : Launch) (contents : Memory) (r : RegIdx) :
    (State.launch p contents).prevAt r = 0#32 :=
  Vector.getElem_replicate r.isLt

/-- The default launch is the boot with the default inputs and no image (log 2). -/
theorem State.reset_eq_boot : State.reset = State.boot {} [] := rfl

/-- Settles O1: a launch writes each row of R280's table as listed; registers and snapshot read 0 at every index. -/
theorem resetLeavesTheListedValues : Obligations.ResetLeavesTheListedValues :=
  fun p image =>
    ⟨State.launch_getReg p (Memory.ofImage p.memBase p.memSize image), rfl,
      State.launch_prevAt p (Memory.ofImage p.memBase p.memSize image), rfl, rfl, rfl, rfl, rfl, rfl, rfl, rfl, rfl,
      State.reset_eq_boot⟩

/-! ### A legal launch establishes the invariant -/

/-- Reset over canonical contents inside a legal DRAM meets the invariant: the timer counts are 0 and the run is neither
halted nor faulted. -/
theorem State.Inv.launch {p : Launch} {contents : Memory} (hwf : contents.wf)
    (hin : ∀ c ∈ contents, p.memBase.toNat ≤ c.1 ∧ c.1 < p.memBase.toNat + p.memSize)
    (hlegal : 1 ≤ p.memSize ∧ p.memBase.toNat + p.memSize ≤ 2 ^ 32) : (State.launch p contents).Inv where
  canonical := hwf
  inside := hin
  legal := decide_eq_true hlegal
  prevZero := State.launch_prevAt p contents 0
  counters := rfl
  timers := ⟨.inl rfl, .inl rfl⟩
  halted := nofun
  faulted := nofun

/-- The image's contents are canonical and inside DRAM, so a boot with a legal geometry meets the invariant. -/
theorem State.Inv.boot {p : Launch} (image : List Byte)
    (hlegal : 1 ≤ p.memSize ∧ p.memBase.toNat + p.memSize ≤ 2 ^ 32) : (State.boot p image).Inv :=
  State.Inv.launch (Memory.wf_ofImage _ _ _) (fun _ => Memory.ofImage_inside) hlegal

/-- Settles O52: reset is the boot with the default inputs, whose geometry is legal. -/
theorem launchEstablishesTheInvariant : Obligations.LaunchEstablishesTheInvariant := by
  refine ⟨?_, fun p image hsize hend => State.Inv.boot image ⟨hsize, hend⟩⟩
  rw [State.reset_eq_boot]
  exact State.Inv.boot [] (by decide)

end Sys2Proof.Machine
end

section
/-! PROOFS. Two statements beside the instructions: the canonical form of DRAM's contents is one form (log 12), and
sample words of spec/30_encoding.md R90 to R103 decode as written there. -/

namespace Sys2Proof.Machine

/-! ### Reading a list of cells -/

theorem Memory.read_cons_self (c : Host.Cell) (m : Memory) : Memory.read (c :: m) c.1 = c.2 :=
  if_pos rfl

theorem Memory.read_cons_of_ne {c : Host.Cell} {a : Nat} (h : a ≠ c.1) (m : Memory) :
    Memory.read (c :: m) a = m.read a :=
  if_neg h

/-! ### Canonical contents are determined by what they read as -/

section ReadAlike
variable {c d : Host.Cell} {m m' : Memory}

/-- Canonical contents with a cell do not read as the fill everywhere. -/
theorem Memory.exists_read_ne_fill (hm : Memory.wf (c :: m)) : ∃ a, Memory.read (c :: m) a ≠ Config.initFill :=
  ⟨c.1, by rw [Memory.read_cons_self]; exact (Memory.wf_cons.mp hm).2.1⟩

/-- Were the left's first address below all of the right's, the left would read a listed byte there and the right the fill. -/
theorem Memory.head_le_of_read_eq (hm : Memory.wf (c :: m)) (hm' : Memory.wf (d :: m'))
    (h : ∀ a, Memory.read (c :: m) a = Memory.read (d :: m') a) : d.1 ≤ c.1 := by
  obtain ⟨-, hne, -⟩ := Memory.wf_cons.mp hm
  obtain ⟨hlt', -, -⟩ := Memory.wf_cons.mp hm'
  by_contra hcd
  have hbelow : ∀ e ∈ d :: m', c.1 < e.1 := by
    intro e he
    rcases List.mem_cons.mp he with rfl | he
    · omega
    · have := hlt' e he
      omega
  exact hne (by rw [← Memory.read_cons_self c m, h, Memory.read_below hbelow])

/-- Canonical contents that read alike start with the same cell. -/
theorem Memory.head_eq_of_read_eq (hm : Memory.wf (c :: m)) (hm' : Memory.wf (d :: m'))
    (h : ∀ a, Memory.read (c :: m) a = Memory.read (d :: m') a) : c = d := by
  have haddr : c.1 = d.1 :=
    le_antisymm (Memory.head_le_of_read_eq hm' hm fun a => (h a).symm) (Memory.head_le_of_read_eq hm hm' h)
  have hbyte : c.2 = d.2 := by rw [← Memory.read_cons_self c m, h, haddr, Memory.read_cons_self]
  exact Prod.ext haddr hbyte

/-- Behind a common first cell both read alike again: at that cell's address, which is below them, they read as the fill. -/
theorem Memory.tail_read_eq (hm : Memory.wf (c :: m)) (hm' : Memory.wf (c :: m'))
    (h : ∀ a, Memory.read (c :: m) a = Memory.read (c :: m') a) (a : Nat) : m.read a = m'.read a := by
  by_cases ha : a = c.1
  · rw [ha, Memory.read_below (Memory.wf_cons.mp hm).1, Memory.read_below (Memory.wf_cons.mp hm').1]
  · rw [← Memory.read_cons_of_ne ha m, h, Memory.read_cons_of_ne ha]

end ReadAlike

/-- Settles O6, by induction on the cells: the first cells are the same, and the rests read alike. -/
theorem canonicalMemoriesThatReadAlikeAreEqual : Obligations.CanonicalMemoriesThatReadAlikeAreEqual := by
  intro m
  induction m with
  | nil =>
    intro m' _ hm' h
    cases m' with
    | nil => rfl
    | cons d m' =>
      obtain ⟨a, ha⟩ := Memory.exists_read_ne_fill hm'
      exact absurd (h a).symm ha
  | cons c m ih =>
    intro m' hm hm' h
    cases m' with
    | nil =>
      obtain ⟨a, ha⟩ := Memory.exists_read_ne_fill hm
      exact absurd (h a) ha
    | cons d m' =>
      obtain rfl : c = d := Memory.head_eq_of_read_eq hm hm' h
      obtain ⟨-, -, hwf⟩ := Memory.wf_cons.mp hm
      obtain ⟨-, -, hwf'⟩ := Memory.wf_cons.mp hm'
      rw [ih m' hwf hwf' (Memory.tail_read_eq hm hm' h)]

end Sys2Proof.Machine

namespace Sys2Proof

/-- Settles O35: the words are closed, and the decoder computes on each of them. -/
theorem sampleWordsDecode : Obligations.SampleWordsDecode := by
  unfold Obligations.SampleWordsDecode
  decide

end Sys2Proof
end
